-- ==== Sys2Proof/Word.lean ====
section
/-!
DEFINITION. The word types of the engine (spec/00_scope.md R6, R8).
-/
namespace Sys2Proof

/-- A 32-bit value `v[31:0]` (R6, R8). -/
abbrev Word := BitVec 32

/-- One cell of data memory. -/
abbrev Byte := BitVec 8

/-- The 16-bit header word of a bundle (spec/30_encoding.md R91). -/
abbrev HeaderWord := BitVec 16

/-- Program text, tokens and label names: a list of characters (log 11). -/
abbrev Text := List Char

/-- A register number, 0 to 15 (spec/10_state.md R20). -/
abbrev RegNum := Fin 16

end Sys2Proof
end

