-- ==== Sys2Proof/Config.lean ====
section
/-!
DEFINITION. The model parameters of spec/00_scope.md R7. They are plain data and `State` holds them, so a statement
over all states is a statement over all parameter values (log 2). The spec leaves no instruction a result it does not
state, so there is no free value.
-/
namespace Sys2Proof

/-- `SHIFT_AMOUNT_RULE` (R7, spec/40_engine_and_operands.md R138). -/
inductive ShiftAmountRule where
  | armReg
  | mask5
  deriving DecidableEq, Repr

/-- `EXTRA_COND_SPELLINGS`, a subset of {HS, LO, NV} (R7, spec/30_encoding.md R76). -/
structure ExtraConds where
  hs : Bool
  lo : Bool
  nv : Bool
  deriving DecidableEq, Repr

/-- The five parameters of R7. -/
structure Params where
  memWords         : Nat
  physMemBase      : Nat
  memIndirectLoads : Bool
  shiftAmountRule  : ShiftAmountRule
  extraConds       : ExtraConds
  deriving DecidableEq, Repr

/-- The constraints of R7: `MEM_WORDS ≥ 1`, the base a multiple of 4, and the window ends at or below 2^31. -/
def Params.valid (p : Params) : Bool :=
  decide (1 ≤ p.memWords) && decide (p.physMemBase % 4 = 0) &&
    decide (p.physMemBase + 4 * p.memWords ≤ 2 ^ 31)

/-- The defaults of R7. DESIGN CHOICE, unsafe (log 2): `PHYS_MEM_BASE` has no default in the spec, 0x1000 is the value
its test vectors use. -/
def Params.default : Params :=
  { memWords := 256, physMemBase := 0x1000, memIndirectLoads := false,
    shiftAmountRule := .armReg, extraConds := { hs := false, lo := false, nv := false } }

end Sys2Proof
end

