-- ==== Sys2Proof/Syntax.lean ====
section
/-!
DEFINITION. Instructions, their operands, the decoded bundle and the Program (spec/30_encoding.md, spec/10_state.md R31).
-/
namespace Sys2Proof

/-- The 20 mnemonics (spec/30_encoding.md R75). -/
inductive Mnemonic where
  | sub | rsb | add | adc | sbc | rsc
  | tst | teq | cmp | cmn
  | mov | mvn
  | lsl | lsr | asr | ror | rrx
  | ldr | str | b
  deriving DecidableEq, Repr

/-- The 16 condition codes in code order 0 to 15 (spec/30_encoding.md R93). -/
inductive Cond where
  | eq | ne | cs | cc | mi | pl | vs | vc | hi | ls | ge | lt | gt | le | al | nv
  deriving DecidableEq, Repr

/-- The five shift kinds (spec/30_encoding.md R79). -/
inductive ShiftKind where
  | lsl | lsr | asr | ror | rrx
  deriving DecidableEq, Repr

/-- The flag-update modes (spec/30_encoding.md R87). -/
inductive FlagMode where
  | add | sub | shift | other
  deriving DecidableEq, Repr

/-- The execution shapes (spec/30_encoding.md R88). -/
inductive Shape where
  | registerUpdate | compareOnly | store | branch
  deriving DecidableEq, Repr

/-- The operand classes of R84 that one token can have (spec/30_encoding.md R84). -/
inductive Simple where
  | reg (r : RegNum)
  | cpsr
  | imm (v : Word)
  | memInd (r : RegNum)
  | bad (t : Text)
  deriving DecidableEq, Repr

/-- An operand descriptor (R84). Shifts do not nest (R81), so both operands of a shift are `Simple`. The amount is
`none` for RRX only, which `WellFormed` checks. -/
inductive Operand where
  | simple (o : Simple)
  | shift (kind : ShiftKind) (before : Simple) (after : Option Simple)
  deriving DecidableEq, Repr

/-- A classified target token (spec/30_encoding.md R86). -/
inductive Target where
  | reg (r : RegNum)
  | bad (t : Text)
  deriving DecidableEq, Repr

/-- The two optional suffixes of an opword (spec/30_encoding.md R72, R76, R77). `cond = none` when no condition suffix
was given. -/
structure Suffix where
  cond : Option Cond
  s    : Bool
  deriving DecidableEq, Repr

/-- One constructor per row of spec/opcode_table.json, in the table's order, with the operand shape of
spec/30_encoding.md R82 and R83. -/
inductive Instr where
  | sub (sfx : Suffix) (rd : Target) (op1 op2 : Operand)
  | rsb (sfx : Suffix) (rd : Target) (op1 op2 : Operand)
  | add (sfx : Suffix) (rd : Target) (op1 op2 : Operand)
  | adc (sfx : Suffix) (rd : Target) (op1 op2 : Operand)
  | sbc (sfx : Suffix) (rd : Target) (op1 op2 : Operand)
  | rsc (sfx : Suffix) (rd : Target) (op1 op2 : Operand)
  | tst (sfx : Suffix) (op1 op2 : Operand)
  | teq (sfx : Suffix) (op1 op2 : Operand)
  | cmp (sfx : Suffix) (op1 op2 : Operand)
  | cmn (sfx : Suffix) (op1 op2 : Operand)
  | mov (sfx : Suffix) (rd : Target) (op : Operand)
  | mvn (sfx : Suffix) (rd : Target) (op : Operand)
  | lsl (sfx : Suffix) (rd : Target) (op1 amount : Operand)
  | lsr (sfx : Suffix) (rd : Target) (op1 amount : Operand)
  | asr (sfx : Suffix) (rd : Target) (op1 amount : Operand)
  | ror (sfx : Suffix) (rd : Target) (op1 amount : Operand)
  | rrx (sfx : Suffix) (rd : Target) (op : Operand)
  | ldr (sfx : Suffix) (rd : Target) (op : Operand)
  | str (sfx : Suffix) (value address : Operand)
  | b (sfx : Suffix) (label : Text)
  deriving DecidableEq, Repr

/-- The instruction's mnemonic (the field `op` of R83). -/
def Instr.mnemonic : Instr → Mnemonic
  | .sub .. => .sub | .rsb .. => .rsb | .add .. => .add | .adc .. => .adc
  | .sbc .. => .sbc | .rsc .. => .rsc | .tst .. => .tst | .teq .. => .teq
  | .cmp .. => .cmp | .cmn .. => .cmn | .mov .. => .mov | .mvn .. => .mvn
  | .lsl .. => .lsl | .lsr .. => .lsr | .asr .. => .asr | .ror .. => .ror
  | .rrx .. => .rrx | .ldr .. => .ldr | .str .. => .str | .b .. => .b

/-- The instruction's suffixes. -/
def Instr.suffix : Instr → Suffix
  | .sub f .. => f | .rsb f .. => f | .add f .. => f | .adc f .. => f
  | .sbc f .. => f | .rsc f .. => f | .tst f .. => f | .teq f .. => f
  | .cmp f .. => f | .cmn f .. => f | .mov f .. => f | .mvn f .. => f
  | .lsl f .. => f | .lsr f .. => f | .asr f .. => f | .ror f .. => f
  | .rrx f .. => f | .ldr f .. => f | .str f .. => f | .b f _ => f

/-- The field `target` of R83: present in the Register-update shape only. -/
def Instr.target : Instr → Option Target
  | .sub _ t .. => some t | .rsb _ t .. => some t | .add _ t .. => some t | .adc _ t .. => some t
  | .sbc _ t .. => some t | .rsc _ t .. => some t | .tst .. => none | .teq .. => none
  | .cmp .. => none | .cmn .. => none | .mov _ t _ => some t | .mvn _ t _ => some t
  | .lsl _ t .. => some t | .lsr _ t .. => some t | .asr _ t .. => some t | .ror _ t .. => some t
  | .rrx _ t _ => some t | .ldr _ t _ => some t | .str .. => none | .b .. => none

/-- The field `sources` of R83 less the label of a Branch, which is never a resolvable operand. -/
def Instr.sources : Instr → List Operand
  | .sub _ _ x y => [x, y] | .rsb _ _ x y => [x, y] | .add _ _ x y => [x, y] | .adc _ _ x y => [x, y]
  | .sbc _ _ x y => [x, y] | .rsc _ _ x y => [x, y] | .tst _ x y => [x, y] | .teq _ x y => [x, y]
  | .cmp _ x y => [x, y] | .cmn _ x y => [x, y] | .mov _ _ x => [x] | .mvn _ _ x => [x]
  | .lsl _ _ x y => [x, y] | .lsr _ _ x y => [x, y] | .asr _ _ x y => [x, y] | .ror _ _ x y => [x, y]
  | .rrx _ _ x => [x] | .ldr _ _ x => [x] | .str _ x y => [x, y] | .b .. => []

/-- `Mode(op)` (R87). -/
def Mnemonic.mode : Mnemonic → FlagMode
  | .add | .adc | .cmn => .add
  | .sub | .sbc | .rsb | .rsc | .cmp => .sub
  | .mov | .mvn | .tst | .teq | .lsl | .lsr | .asr | .ror | .rrx => .shift
  | .ldr | .str | .b => .other

/-- `Shape(op)` (R88). -/
def Mnemonic.shape : Mnemonic → Shape
  | .add | .adc | .sub | .sbc | .rsb | .rsc | .lsl | .lsr | .asr | .ror | .rrx | .mov | .mvn | .ldr => .registerUpdate
  | .cmp | .cmn | .tst | .teq => .compareOnly
  | .str => .store
  | .b => .branch

/-- The number of entries the rewritten operand list of a line must have (R82). -/
def Mnemonic.operandCount : Mnemonic → Nat
  | .add | .adc | .sub | .sbc | .rsb | .rsc | .lsl | .lsr | .asr | .ror => 2
  | .mov | .mvn | .rrx | .ldr | .cmp | .cmn | .tst | .teq | .str => 1
  | .b => 0

/-- The field `fmode` of R83: the mode exactly when `S` was given (R87). -/
def Instr.fmode (i : Instr) : Option FlagMode :=
  if i.suffix.s then some i.mnemonic.mode else none

/-- One operand descriptor word of a bundle. Log 1: the spec names the descriptors (R84, R91) and gives them no bits. -/
inductive Descriptor where
  | target (t : Target)
  | source (o : Operand)
  | label (t : Text)
  deriving DecidableEq, Repr

/-- The decoded bundle: the 16-bit header word and the operand descriptors, target first (R91). -/
structure Bundle where
  header : HeaderWord
  descs  : List Descriptor
  deriving DecidableEq, Repr

/-- One entry of the program store (R83): its index, its label and its bundle. -/
structure Operation where
  lineIndex : Nat
  label     : Option Text
  bundle    : Bundle
  deriving DecidableEq, Repr

/-- A Program (spec/10_state.md R31): the operations and the label table of R89, one entry per label name in the order
of first definition (log 12). -/
structure Program where
  operations : List Operation
  labels     : List (Text × List Nat)
  deriving DecidableEq, Repr

end Sys2Proof
end

