-- ==== Sys2Proof/Decode.lean ====
section
/-!
DEFINITION. The Tokenizer, the Instruction Decoder and the Program Builder (spec/30_encoding.md): from text to
Operations, from a bundle to an instruction, and the two encoders (an instruction's bundle, an instruction's line).
-/
namespace Sys2Proof

/-! ### Character classes and line filtering (R71, R72) -/

/-- `WS`: space or TAB (R72). -/
def isWs (c : Char) : Bool := c == ' ' || c == '\t'

/-- A character of `SEP`: space, TAB or comma (R72). -/
def isSep (c : Char) : Bool := isWs c || c == ','

/-- `tchar`: any character that is no separator (R72). -/
def isTchar (c : Char) : Bool := !isSep c

/-- The characters that R71 step 3 trims: space, TAB, CR, VT and FF. -/
def isTrimmed (c : Char) : Bool :=
  isWs c || c == '\r' || c == Char.ofNat 0x0B || c == Char.ofNat 0x0C

/-- `idstart` (R72). -/
def isIdStart (c : Char) : Bool :=
  (decide ('A' ≤ c) && decide (c ≤ 'Z')) || (decide ('a' ≤ c) && decide (c ≤ 'z')) || c == '_'

/-- `digit` (R72). -/
def isDigit (c : Char) : Bool := decide ('0' ≤ c) && decide (c ≤ '9')

/-- R71 step 1: split at each line feed. -/
def splitLines : Text → List Text
  | [] => [[]]
  | c :: cs =>
    if c == '\n' then [] :: splitLines cs
    else
      match splitLines cs with
      | [] => [[c]]
      | l :: ls => (c :: l) :: ls

/-- R71 step 2: delete everything from the first `;`. -/
def stripComment (l : Text) : Text := l.takeWhile (fun c => c != ';')

/-- R71 step 3: trim both ends. -/
def trim (l : Text) : Text := ((l.dropWhile isTrimmed).reverse.dropWhile isTrimmed).reverse

/-- R71: the filtered lines of a text, in order. -/
def filterLines (text : Text) : List Text :=
  ((splitLines text).map (fun l => trim (stripComment l))).filter (fun l => !l.isEmpty)

/-! ### Tokens (R72) -/

/-- The maximal runs of non-separators of a text, in order. -/
def words (sep : Char → Bool) : Text → List Text
  | [] => []
  | c :: cs =>
    if sep c then words sep cs
    else
      match cs with
      | [] => [[c]]
      | d :: _ =>
        if sep d then [c] :: words sep cs
        else
          match words sep cs with
          | [] => [[c]]
          | w :: ws => (c :: w) :: ws

/-- `token { SEP token }` (R72): the tokens of a text that begins and ends with a token. -/
def tokens (l : Text) : Option (List Text) :=
  match l.head?, l.getLast? with
  | some a, some z => if isTchar a && isTchar z then some (words isSep l) else none
  | _, _ => none

/-- The text up to the first white space, and the text after that white space. -/
def splitWord (l : Text) : Text × Text :=
  (l.takeWhile (fun c => !isWs c), (l.dropWhile (fun c => !isWs c)).dropWhile isWs)

/-- `label` (R72, R73). -/
def isLabel : Text → Bool
  | [] => false
  | c :: cs => isIdStart c && cs.all (fun d => isIdStart d || isDigit d)

/-! ### The opword (R75 to R78) -/

/-- The upper-case spelling of a mnemonic (R75). -/
def Mnemonic.spelling : Mnemonic → Text
  | .sub => ['S', 'U', 'B'] | .rsb => ['R', 'S', 'B'] | .add => ['A', 'D', 'D'] | .adc => ['A', 'D', 'C']
  | .sbc => ['S', 'B', 'C'] | .rsc => ['R', 'S', 'C'] | .tst => ['T', 'S', 'T'] | .teq => ['T', 'E', 'Q']
  | .cmp => ['C', 'M', 'P'] | .cmn => ['C', 'M', 'N'] | .mov => ['M', 'O', 'V'] | .mvn => ['M', 'V', 'N']
  | .lsl => ['L', 'S', 'L'] | .lsr => ['L', 'S', 'R'] | .asr => ['A', 'S', 'R'] | .ror => ['R', 'O', 'R']
  | .rrx => ['R', 'R', 'X'] | .ldr => ['L', 'D', 'R'] | .str => ['S', 'T', 'R'] | .b => ['B']

/-- The closed set of mnemonics (R75). -/
def Mnemonic.all : List Mnemonic :=
  [.sub, .rsb, .add, .adc, .sbc, .rsc, .tst, .teq, .cmp, .cmn, .mov, .mvn, .lsl, .lsr, .asr, .ror, .rrx, .ldr, .str, .b]

/-- The two-letter spelling of a condition (R76, R93). -/
def Cond.spelling : Cond → Text
  | .eq => ['E', 'Q'] | .ne => ['N', 'E'] | .cs => ['C', 'S'] | .cc => ['C', 'C']
  | .mi => ['M', 'I'] | .pl => ['P', 'L'] | .vs => ['V', 'S'] | .vc => ['V', 'C']
  | .hi => ['H', 'I'] | .ls => ['L', 'S'] | .ge => ['G', 'E'] | .lt => ['L', 'T']
  | .gt => ['G', 'T'] | .le => ['L', 'E'] | .al => ['A', 'L'] | .nv => ['N', 'V']

/-- The 16 conditions in code order (R93). -/
def Cond.all : List Cond :=
  [.eq, .ne, .cs, .cc, .mi, .pl, .vs, .vc, .hi, .ls, .ge, .lt, .gt, .le, .al, .nv]

/-- The spellings a condition suffix may have under the parameter `EXTRA_COND_SPELLINGS`, with their codes (R76). -/
def condSpellings (ex : ExtraConds) : List (Text × Cond) :=
  ((Cond.all.filter (fun c => c != .nv || ex.nv)).map (fun c => (c.spelling, c))) ++
    (if ex.hs then [(['H', 'S'], Cond.cs)] else []) ++ (if ex.lo then [(['L', 'O'], Cond.cc)] else [])

/-- Read a condition suffix (R76). -/
def parseCond (ex : ExtraConds) (t : Text) : Option Cond :=
  ((condSpellings ex).find? (fun e => e.1 == t)).map (fun e => e.2)

/-- Read what follows the mnemonic: `[ cond ] [ "S" ]` (R72, R76 to R78). -/
def parseSuffix (ex : ExtraConds) : Text → Option Suffix
  | [] => some ⟨none, false⟩
  | ['S'] => some ⟨none, true⟩
  | [x, y] => (parseCond ex [x, y]).map (fun c => ⟨some c, false⟩)
  | [x, y, 'S'] => (parseCond ex [x, y]).map (fun c => ⟨some c, true⟩)
  | _ => none

/-- The text after a leading part, if the text begins with it. -/
def afterStart : Text → Text → Option Text
  | [], t => some t
  | _ :: _, [] => none
  | a :: as, c :: cs => if a == c then afterStart as cs else none

/-- Read an opword as one given mnemonic. -/
def readOpword (ex : ExtraConds) (t : Text) (m : Mnemonic) : Option (Mnemonic × Suffix) :=
  match afterStart m.spelling t with
  | none => none
  | some r => (parseSuffix ex r).map (fun f => (m, f))

/-- Read an opword (R72, R75 to R78). -/
def parseOpword (ex : ExtraConds) (t : Text) : Option (Mnemonic × Suffix) :=
  Mnemonic.all.findSome? (readOpword ex t)

/-! ### Operand classification (R79, R80, R84 to R86) -/

/-- The value of a decimal digit. -/
def decDigit (c : Char) : Option Nat :=
  if isDigit c then some (c.toNat - '0'.toNat) else none

/-- The value of a hex digit of either case (R84). -/
def hexDigit (c : Char) : Option Nat :=
  if isDigit c then some (c.toNat - '0'.toNat)
  else if decide ('a' ≤ c) && decide (c ≤ 'f') then some (c.toNat - 'a'.toNat + 10)
  else if decide ('A' ≤ c) && decide (c ≤ 'F') then some (c.toNat - 'A'.toNat + 10)
  else none

/-- Digits read in a base, onto a value read before. -/
def readDigits (base : Nat) (digit : Char → Option Nat) : Text → Nat → Option Nat
  | [], n => some n
  | c :: cs, n =>
    match digit c with
    | none => none
    | some d => readDigits base digit cs (n * base + d)

/-- An unsigned literal: `0x` and one or more hex digits, or one or more decimal digits (R84). -/
def readMagnitude : Text → Option Nat
  | [] => none
  | '0' :: 'x' :: [] => none
  | '0' :: 'x' :: c :: cs => readDigits 16 hexDigit (c :: cs) 0
  | c :: cs => readDigits 10 decDigit (c :: cs) 0

/-- The exact integer after the `#` of an immediate: an optional `-`, then a literal (R84, R85). -/
def readLiteral : Text → Option Int
  | '-' :: t => (readMagnitude t).map (fun n => -(n : Int))
  | t => (readMagnitude t).map (fun n => (n : Int))

/-- The register number that digits spell: `0` to `9`, `10` to `15`, no leading zero (R84). -/
def readRegNum : Text → Option RegNum
  | [d] => (decDigit d).bind (fun n => if h : n < 16 then some ⟨n, h⟩ else none)
  | ['1', d] => (decDigit d).bind (fun n => if h : 10 + n < 16 then some ⟨10 + n, h⟩ else none)
  | _ => none

/-- A `Reg` spelling: `R` or `r` and a number, or exactly `PC` (R84). -/
def readRegToken : Text → Option RegNum
  | ['P', 'C'] => some 15
  | 'R' :: ds => readRegNum ds
  | 'r' :: ds => readRegNum ds
  | _ => none

/-- The register of a memory-indirect token `[Rn]` (R84). -/
def readMemInd : Text → Option RegNum
  | '[' :: t =>
    match t.getLast? with
    | some ']' => readRegToken t.dropLast
    | _ => none
  | _ => none

/-- The value of an immediate token, reduced modulo 2^32 (R84, R85). -/
def readImm : Text → Option Word
  | '#' :: t => (readLiteral t).map (fun z => BitVec.ofInt 32 z)
  | _ => none

/-- `Classify(t)`: the first class whose pattern matches (R84). -/
def classify (t : Text) : Simple :=
  match readRegToken t with
  | some r => .reg r
  | none =>
    if t == ['c', 'p', 's', 'r'] then .cpsr
    else
      match readImm t with
      | some v => .imm v
      | none =>
        match readMemInd t with
        | some r => .memInd r
        | none => .bad t

/-- `Classify_T(tt)`: uppercased, then `R0` to `R15` or `PC` (R86). -/
def classifyTarget (t : Text) : Target :=
  match readRegToken (t.map Char.toUpper) with
  | some r => .reg r
  | none => .bad t

/-- The spelling of a shift kind (R79). -/
def ShiftKind.spelling : ShiftKind → Text
  | .lsl => ['L', 'S', 'L'] | .lsr => ['L', 'S', 'R'] | .asr => ['A', 'S', 'R']
  | .ror => ['R', 'O', 'R'] | .rrx => ['R', 'R', 'X']

/-- A shift-kind token, upper case exactly (R79). -/
def readShiftKind (t : Text) : Option ShiftKind :=
  [ShiftKind.lsl, .lsr, .asr, .ror, .rrx].find? (fun k => k.spelling == t)

/-- The shift-operand rewriting of R81. `acc` is the list `O` in reverse. `none` is a misplaced shift kind. -/
def rewriteShifts : List Text → List Operand → Option (List Operand)
  | [], acc => some acc.reverse
  | t :: ts, acc =>
    match readShiftKind t with
    | none => rewriteShifts ts (.simple (classify t) :: acc)
    | some .rrx =>
      match acc with
      | .simple before :: rest => rewriteShifts ts (.shift .rrx before none :: rest)
      | _ => none
    | some k =>
      match acc, ts with
      | .simple before :: rest, amt :: ts' =>
        if (readShiftKind amt).isSome then none
        else rewriteShifts ts' (.shift k before (some (classify amt)) :: rest)
      | _, _ => none

/-! ### One line (R72 to R83) -/

/-- Why a line is a DecodeError at build (spec/60_exceptions.md R251). -/
inductive LineError where
  | grammar
  | shiftPlacement
  | operandCount
  deriving DecidableEq, Repr

/-- The operand-count check of R82 and the Operation's fields of R83. `tt` is the target token. -/
def buildInstr (m : Mnemonic) (f : Suffix) (tt : Text) (o : List Operand) : Option Instr :=
  match m, o with
  | .sub, [x, y] => some (.sub f (classifyTarget tt) x y)
  | .rsb, [x, y] => some (.rsb f (classifyTarget tt) x y)
  | .add, [x, y] => some (.add f (classifyTarget tt) x y)
  | .adc, [x, y] => some (.adc f (classifyTarget tt) x y)
  | .sbc, [x, y] => some (.sbc f (classifyTarget tt) x y)
  | .rsc, [x, y] => some (.rsc f (classifyTarget tt) x y)
  | .tst, [y] => some (.tst f (.simple (classify tt)) y)
  | .teq, [y] => some (.teq f (.simple (classify tt)) y)
  | .cmp, [y] => some (.cmp f (.simple (classify tt)) y)
  | .cmn, [y] => some (.cmn f (.simple (classify tt)) y)
  | .mov, [x] => some (.mov f (classifyTarget tt) x)
  | .mvn, [x] => some (.mvn f (classifyTarget tt) x)
  | .lsl, [x, y] => some (.lsl f (classifyTarget tt) x y)
  | .lsr, [x, y] => some (.lsr f (classifyTarget tt) x y)
  | .asr, [x, y] => some (.asr f (classifyTarget tt) x y)
  | .ror, [x, y] => some (.ror f (classifyTarget tt) x y)
  | .rrx, [x] => some (.rrx f (classifyTarget tt) x)
  | .ldr, [x] => some (.ldr f (classifyTarget tt) x)
  | .str, [y] => some (.str f (.simple (classify tt)) y)
  | .b, [] => some (.b f tt)
  | _, _ => none

/-- `opword WS token { SEP token }` (R72): the opword and the tokens. -/
def readUnlabelled (ex : ExtraConds) (line : Text) : Option ((Mnemonic × Suffix) × List Text) :=
  match parseOpword ex (splitWord line).1, tokens (splitWord line).2 with
  | some w, some ts => some (w, ts)
  | _, _ => none

/-- The reading of a line: with its label if that reading matches, otherwise without (R74). -/
def readLine (ex : ExtraConds) (line : Text) : Option (Option Text × (Mnemonic × Suffix) × List Text) :=
  let plain := (readUnlabelled ex line).map (fun r => (none, r))
  if isLabel (splitWord line).1 then
    match readUnlabelled ex (splitWord line).2 with
    | some r => some (some (splitWord line).1, r)
    | none => plain
  else plain

/-- Decode one filtered line into a label and an instruction, or say why not (R72 to R83). -/
def parseLine (ex : ExtraConds) (line : Text) : Except LineError (Option Text × Instr) :=
  match readLine ex line with
  | some (lbl, (m, f), tt :: ts) =>
    match rewriteShifts ts [] with
    | none => .error .shiftPlacement
    | some o =>
      match buildInstr m f tt o with
      | none => .error .operandCount
      | some i => .ok (lbl, i)
  | _ => .error .grammar

/-! ### The bundle (R91 to R94) -/

/-- The mnemonic codes (R92). -/
def Mnemonic.code : Mnemonic → Nat
  | .sub => 2 | .rsb => 3 | .add => 4 | .adc => 5 | .sbc => 6 | .rsc => 7
  | .tst => 8 | .teq => 9 | .cmp => 10 | .cmn => 11 | .mov => 13 | .mvn => 15
  | .lsl => 16 | .lsr => 17 | .asr => 18 | .ror => 19 | .rrx => 20
  | .ldr => 21 | .str => 22 | .b => 23

/-- The mnemonic of a code, `none` for the reserved codes 0, 1, 12, 14 and 24 to 31 (R92, R94). -/
def Mnemonic.ofCode : Nat → Option Mnemonic
  | 2 => some .sub | 3 => some .rsb | 4 => some .add | 5 => some .adc | 6 => some .sbc | 7 => some .rsc
  | 8 => some .tst | 9 => some .teq | 10 => some .cmp | 11 => some .cmn | 13 => some .mov | 15 => some .mvn
  | 16 => some .lsl | 17 => some .lsr | 18 => some .asr | 19 => some .ror | 20 => some .rrx
  | 21 => some .ldr | 22 => some .str | 23 => some .b
  | _ => none

/-- The condition codes (R93). -/
def Cond.code : Cond → Nat
  | .eq => 0 | .ne => 1 | .cs => 2 | .cc => 3 | .mi => 4 | .pl => 5 | .vs => 6 | .vc => 7
  | .hi => 8 | .ls => 9 | .ge => 10 | .lt => 11 | .gt => 12 | .le => 13 | .al => 14 | .nv => 15

/-- The condition of a 4-bit code (R93). -/
def Cond.ofCode : Nat → Cond
  | 0 => .eq | 1 => .ne | 2 => .cs | 3 => .cc | 4 => .mi | 5 => .pl | 6 => .vs | 7 => .vc
  | 8 => .hi | 9 => .ls | 10 => .ge | 11 => .lt | 12 => .gt | 13 => .le | 14 => .al | _ => .nv

/-- The header fields of R91. -/
def headerOp (h : HeaderWord) : Nat := h.toNat % 32
def headerCond (h : HeaderWord) : Nat := h.toNat / 32 % 16
def headerS (h : HeaderWord) : Bool := h.toNat / 512 % 2 == 1
def headerCp (h : HeaderWord) : Bool := h.toNat / 1024 % 2 == 1
def headerZero (h : HeaderWord) : Nat := h.toNat / 2048

/-- The mnemonic and suffixes of a header word; `none` where R94 reserves it. Log 7: with `cp = 0` no suffix was given,
whatever the cond field holds. -/
def decodeHeader (h : HeaderWord) : Option (Mnemonic × Suffix) :=
  if headerZero h = 0 then
    (Mnemonic.ofCode (headerOp h)).map
      (fun m => (m, ⟨if headerCp h then some (Cond.ofCode (headerCond h)) else none, headerS h⟩))
  else none

/-- `header = op | cond<<5 | s<<9 | cp<<10` (R91). -/
def encodeHeader (m : Mnemonic) (f : Suffix) : HeaderWord :=
  BitVec.ofNat 16 (m.code + 32 * (match f.cond with | none => Cond.al.code | some c => c.code) +
    512 * (if f.s then 1 else 0) + 1024 * (if f.cond.isSome then 1 else 0))

/-- Why a bundle is refused. -/
inductive Reject where
  | reservedOperation (header : HeaderWord)
  | malformedBundle (header : HeaderWord)
  deriving DecidableEq, Repr

/-- The instruction of a mnemonic, suffixes and descriptors; `none` if the descriptors are not as many, or not of the kinds
(target, source, label), as R82 and R83 give the mnemonic. DESIGN CHOICE, unsafe (log 13): what a source holds is not looked
at, so a compare or a store whose first source is a Shift (which no line spells, spec/44_compare.md R224) is taken. -/
def fitDescriptors (m : Mnemonic) (f : Suffix) (ds : List Descriptor) : Option Instr :=
  match m, ds with
  | .sub, [.target t, .source x, .source y] => some (.sub f t x y)
  | .rsb, [.target t, .source x, .source y] => some (.rsb f t x y)
  | .add, [.target t, .source x, .source y] => some (.add f t x y)
  | .adc, [.target t, .source x, .source y] => some (.adc f t x y)
  | .sbc, [.target t, .source x, .source y] => some (.sbc f t x y)
  | .rsc, [.target t, .source x, .source y] => some (.rsc f t x y)
  | .tst, [.source x, .source y] => some (.tst f x y)
  | .teq, [.source x, .source y] => some (.teq f x y)
  | .cmp, [.source x, .source y] => some (.cmp f x y)
  | .cmn, [.source x, .source y] => some (.cmn f x y)
  | .mov, [.target t, .source x] => some (.mov f t x)
  | .mvn, [.target t, .source x] => some (.mvn f t x)
  | .lsl, [.target t, .source x, .source y] => some (.lsl f t x y)
  | .lsr, [.target t, .source x, .source y] => some (.lsr f t x y)
  | .asr, [.target t, .source x, .source y] => some (.asr f t x y)
  | .ror, [.target t, .source x, .source y] => some (.ror f t x y)
  | .rrx, [.target t, .source x] => some (.rrx f t x)
  | .ldr, [.target t, .source x] => some (.ldr f t x)
  | .str, [.source x, .source y] => some (.str f x y)
  | .b, [.label t] => some (.b f t)
  | _, _ => none

/-- Decode any bundle: an instruction, or a rejection by name (R91 to R94, spec/60_exceptions.md R258; log 6). -/
def decodeBundle (bd : Bundle) : Except Reject Instr :=
  match decodeHeader bd.header with
  | none => .error (.reservedOperation bd.header)
  | some (m, f) =>
    match fitDescriptors m f bd.descs with
    | none => .error (.malformedBundle bd.header)
    | some i => .ok i

/-- An instruction's descriptors, target first, then the sources or the label (R83). -/
def Instr.descriptors : Instr → List Descriptor
  | .b _ t => [.label t]
  | i => (i.target.map Descriptor.target).toList ++ i.sources.map Descriptor.source

/-- An instruction's bundle (R91). -/
def encode (i : Instr) : Bundle :=
  { header := encodeHeader i.mnemonic i.suffix, descs := i.descriptors }

/-! ### An instruction's line (R97) -/

/-- Two decimal digits or one: a register's number without a leading zero (R84). -/
def regDigits (r : RegNum) : Text :=
  if r.val < 10 then [Char.ofNat ('0'.toNat + r.val)] else ['1', Char.ofNat ('0'.toNat + (r.val - 10))]

/-- One hex digit of a value. -/
def hexChar (n : Nat) : Char :=
  if n < 10 then Char.ofNat ('0'.toNat + n) else Char.ofNat ('A'.toNat + (n - 10))

/-- The `k` low hex digits of a value, highest first. -/
def hexDigits : Nat → Nat → Text
  | 0, _ => []
  | k + 1, n => hexDigits k (n / 16) ++ [hexChar (n % 16)]

/-- The token of an operand class (R84). -/
def Simple.token : Simple → Text
  | .reg r => 'R' :: regDigits r
  | .cpsr => ['c', 'p', 's', 'r']
  | .imm v => '#' :: '0' :: 'x' :: hexDigits 8 v.toNat
  | .memInd r => '[' :: 'R' :: (regDigits r ++ [']'])
  | .bad t => t

/-- The tokens of an operand: a shift's operand, its kind and its amount (R81, R97). -/
def Operand.tokens : Operand → List Text
  | .simple o => [o.token]
  | .shift k before after => [before.token, k.spelling] ++ (after.map Simple.token).toList

/-- The token of a target (R86). -/
def Target.token : Target → Text
  | .reg r => 'R' :: regDigits r
  | .bad t => t

/-- The tokens of an instruction, the target token first (R83, R97). -/
def Instr.tokens : Instr → List Text
  | .b _ t => [t]
  | i => (i.target.map Target.token).toList ++ (i.sources.map Operand.tokens).flatten

/-- The opword of an instruction (R72). -/
def Instr.opword (i : Instr) : Text :=
  i.mnemonic.spelling ++ ((i.suffix.cond.map Cond.spelling).getD []) ++ (if i.suffix.s then ['S'] else [])

/-- Tokens separated by a comma. -/
def joinTokens : List Text → Text
  | [] => []
  | [t] => t
  | t :: u :: ts => t ++ ',' :: joinTokens (u :: ts)

/-- A line that spells an instruction (R72, R97). -/
def Instr.line (i : Instr) : Text := i.opword ++ ' ' :: joinTokens i.tokens

/-- A line that spells a label and an instruction (R72, R73). -/
def labelledLine (lbl : Option Text) (i : Instr) : Text :=
  match lbl with
  | none => i.line
  | some l => l ++ ' ' :: i.line

/-! ### The Program Builder (R70, R89, R90) -/

/-- A DecodeError at build: the filtered line's index and text (R90, spec/60_exceptions.md R251), and which check failed.
The record's `kind` and `code` (R259) are `BuildError.kind` and `BuildError.code` in Machine/Ops.lean. -/
structure BuildError where
  lineIndex : Nat
  text      : Text
  reason    : LineError
  deriving DecidableEq, Repr

/-- Decode lines in order from a line index on; the first failing line is the error (R90). -/
def buildOperations (ex : ExtraConds) : Nat → List Text → Except BuildError (List Operation)
  | _, [] => .ok []
  | n, l :: ls =>
    match parseLine ex l with
    | .error r => .error ⟨n, l, r⟩
    | .ok (lbl, i) =>
      match buildOperations ex (n + 1) ls with
      | .error e => .error e
      | .ok ops => .ok (⟨n, lbl, encode i⟩ :: ops)

/-- Add an index to a label's list, at its end; a new label goes to the table's end. -/
def addLabel (name : Text) (k : Nat) : List (Text × List Nat) → List (Text × List Nat)
  | [] => [(name, [k])]
  | (n, ks) :: rest => if n == name then (n, ks ++ [k]) :: rest else (n, ks) :: addLabel name k rest

/-- The label table of an operation list whose first index is `k`, onto a table (R89). -/
def labelTableFrom : Nat → List Operation → List (Text × List Nat) → List (Text × List Nat)
  | _, [], tbl => tbl
  | k, o :: os, tbl =>
    match o.label with
    | none => labelTableFrom (k + 1) os tbl
    | some name => labelTableFrom (k + 1) os (addLabel name k tbl)

/-- The label table (R89). -/
def labelTable (ops : List Operation) : List (Text × List Nat) := labelTableFrom 0 ops []

/-- `parseProgram(text)` (R70, R90). -/
def parseProgram (ex : ExtraConds) (text : Text) : Except BuildError Program :=
  match buildOperations ex 0 (filterLines text) with
  | .error e => .error e
  | .ok ops => .ok { operations := ops, labels := labelTable ops }

/-- The indices a label name has in a label table, `[]` if it has none (R89, spec/46_branch.md R241). -/
def labelIndices (tbl : List (Text × List Nat)) (name : Text) : List Nat :=
  ((tbl.find? (fun e => e.1 == name)).map (fun e => e.2)).getD []

/-! ### The opcode table's words -/

/-- The descriptors that stand for operand words of zeros (log 1): register 0 in every place, and the empty label. -/
def zeroDescriptors (m : Mnemonic) : List Descriptor :=
  match m.shape with
  | .registerUpdate => .target (.reg 0) :: List.replicate m.operandCount (.source (.simple (.reg 0)))
  | .compareOnly | .store => List.replicate (m.operandCount + 1) (.source (.simple (.reg 0)))
  | .branch => [.label []]

/-- The bundle of a table word: its low 16 bits are the header (bit 0 the header's bit 0), the operand words zero. -/
def bundleOfWord (w : Nat) : Bundle :=
  { header := BitVec.ofNat 16 w
    descs := match decodeHeader (BitVec.ofNat 16 w) with
      | none => []
      | some (m, _) => zeroDescriptors m }

/-- The instruction the decoder reads from a table word. The table gives every row one 16-bit word, so a word with a
bit above the header is no row's. -/
def decodeTableWord (nbits w : Nat) : Option Instr :=
  if w % 2 ^ nbits < 65536 then
    match decodeBundle (bundleOfWord (w % 2 ^ nbits)) with
    | .ok i => some i
    | .error _ => none
  else none

/-- A one-operation Program that holds a table word's bundle. -/
def programOfWord (nbits w : Nat) : Program :=
  { operations := [⟨0, none, bundleOfWord (w % 2 ^ nbits)⟩], labels := [] }

end Sys2Proof
end

