-- ==== Sys2Proof/WellFormed.lean ====
section
/-!
DEFINITION. Which instructions a line of assembly text can spell (spec/30_encoding.md R72 to R86). An instruction that
is not well-formed can still arrive as a bundle from elsewhere, and the engine then runs it by the same rules (DESIGN CHOICE,
log 13).
-/
namespace Sys2Proof

/-- A token that R71 and R72 let through: not empty, no separator, no comment mark, no line feed. -/
def tokenOk (t : Text) : Bool :=
  !t.isEmpty && t.all (fun c => isTchar c && c != ';' && c != '\n')

/-- A `Bad` operand holds a token that no other class matches (R84). -/
def Simple.wellFormed : Simple → Bool
  | .bad t => tokenOk t && decide (classify t = .bad t)
  | _ => true

/-- The operand's token is no shift kind, as every entry of a source list that stays one token (R79, R81). -/
def Simple.notShiftKind : Simple → Bool
  | .bad t => (readShiftKind t).isNone
  | _ => true

/-- An operand of a source list (R81): a shift of kind RRX has no amount, and every other shift has one. -/
def Operand.wellFormed : Operand → Bool
  | .simple o => o.wellFormed && o.notShiftKind
  | .shift k before after =>
    before.wellFormed && before.notShiftKind &&
      (match after with
       | none => decide (k = .rrx)
       | some a => decide (k ≠ .rrx) && a.wellFormed && a.notShiftKind)

/-- The first source of a compare or a store: the line's target token, so never a shift (R79, R83,
spec/44_compare.md R224). It may spell a shift kind. -/
def Operand.firstWellFormed : Operand → Bool
  | .simple o => o.wellFormed
  | .shift .. => false

/-- A `TBad` target holds a token that is no register name after uppercasing (R86). -/
def Target.wellFormed : Target → Bool
  | .reg _ => true
  | .bad t => tokenOk t && decide (classifyTarget t = .bad t)

/-- `NV` can be spelt only when it is one of the extra spellings (R76). -/
def Suffix.wellFormed (ex : ExtraConds) (f : Suffix) : Bool :=
  match f.cond with
  | some .nv => ex.nv
  | _ => true

/-- The instruction is what some line decodes to, under the extra spellings given. -/
def Instr.wellFormed (ex : ExtraConds) (i : Instr) : Bool :=
  i.suffix.wellFormed ex &&
  match i with
  | .sub _ t x y | .rsb _ t x y | .add _ t x y | .adc _ t x y | .sbc _ t x y | .rsc _ t x y
  | .lsl _ t x y | .lsr _ t x y | .asr _ t x y | .ror _ t x y =>
    t.wellFormed && x.wellFormed && y.wellFormed
  | .mov _ t x | .mvn _ t x | .rrx _ t x | .ldr _ t x => t.wellFormed && x.wellFormed
  | .tst _ x y | .teq _ x y | .cmp _ x y | .cmn _ x y | .str _ x y => x.firstWellFormed && y.wellFormed
  | .b _ t => tokenOk t

/-- A label that a line can carry (R72, R73). -/
def labelOk (lbl : Option Text) : Bool :=
  match lbl with
  | none => true
  | some l => isLabel l

end Sys2Proof
end

