-- ==== Sys2Proof/Machine/State.lean ====
section
/-!
DEFINITION. The engine's state (spec/10_state.md), its error records (spec/60_exceptions.md R250, R259) and the
outcomes that stop the model.
-/
namespace Sys2Proof.Machine

/-- The eight error kinds (spec/60_exceptions.md R250). -/
inductive ErrorKind where
  | decodeErrorBuild
  | decodeErrorResolution
  | addressingErrorMisaligned
  | addressingErrorOutOfWindow
  | stateModificationException
  | unresolvedLabelError
  | ambiguousLabelError
  | reservedOperation
  deriving DecidableEq, Repr

/-- A runtime error with its `info` datum (spec/60_exceptions.md R252 to R259). -/
inductive RunError where
  | decodeError (token : Text)
  | misaligned (address : Nat)
  | outOfWindow (address : Nat)
  | stateModification (token : Text)
  | unresolvedLabel (name : Text)
  | ambiguousLabel (name : Text) (indices : List Nat)
  | reservedOperation (header : HeaderWord)
  deriving DecidableEq, Repr

/-- The error record of R259 less `code` and `kind`, which `RunError.code` and `RunError.kind` give: what went wrong,
and the index of the operation that raised it. -/
structure ErrorRecord where
  error : RunError
  pc    : Nat
  deriving DecidableEq, Repr

/-- `ST` (spec/10_state.md R27). -/
inductive Status where
  | ready
  | halted
  | faulted (e : ErrorRecord)
  deriving DecidableEq, Repr

/-- Data memory: (byte address, byte) cells, addresses strictly rising, no cell that holds 0 (log 3). -/
abbrev Memory := List Host.Cell

/-- Everything the spec gives the machine (spec/10_state.md R20 to R35). -/
structure State where
  /-- R0 to R15 (R20). R15 is ordinary storage (R22). -/
  regs   : Vector Word 16
  /-- The status register: N, Z, C, V in bits 31 to 28, the rest always 0 (R24). -/
  cpsr   : Word
  /-- Data memory (R29). -/
  mem    : Memory
  /-- The cursor, an operation index (R26). -/
  pc     : Nat
  /-- The engine status (R27). -/
  st     : Status
  /-- The loaded program (R28). -/
  lp     : Option Program
  /-- The configuration and the model parameters (R30, spec/00_scope.md R7). -/
  params : Params
  deriving DecidableEq, Repr

/-- Why a step of the model stops. -/
inductive Fault where
  /-- Raised by `step` alone, for a bundle whose header is not reserved and whose operand descriptors do not fit its
  mnemonic. No Decoder makes such a bundle and the spec gives it no effect. Safe: the model stops (log 6). -/
  | malformedBundle (header : HeaderWord)
  deriving DecidableEq, Repr

/-- Why the model gives an instruction no meaning. -/
inductive Refusal where
  /-- Raised by an arm of `exec` for an instruction that has no meaning yet. Safe: the model stops. No arm raises it. -/
  | notModelled (mnemonic : String)
  deriving DecidableEq, Repr

/-- The state after createVm and after RESET, for given parameters (spec/10_state.md R35). -/
def State.initial (p : Params) : State :=
  { regs := Vector.replicate 16 0, cpsr := 0, mem := [], pc := 0, st := .ready, lp := none, params := p }

/-- The machine right after reset (R35), with the default parameters (log 2). -/
def State.reset : State := State.initial Params.default

end Sys2Proof.Machine
end

