-- ==== Sys2Proof/Machine/Ops.lean ====
section
/-!
DEFINITION. Named operations over registers, memory, the program store and the status: the checks and primitives of
spec/20_memory.md, the register write of spec/40_engine_and_operands.md R146, the label lookup of spec/46_branch.md
R241, taking a runtime error (spec/60_exceptions.md R261) and the end of a step (R128, R130).
-/
namespace Sys2Proof.Machine

/-! ### Registers -/

/-- `x[i]` (spec/00_scope.md R9). -/
def readReg (s : State) (r : RegNum) : Word := s.regs[r]

/-- `x[i] <- v` (spec/00_scope.md R9). No register is hardwired (spec/10_state.md R22). -/
def writeReg (s : State) (r : RegNum) (v : Word) : State := { s with regs := s.regs.set r.val v }

/-- Write CPSR. Only the flag-update logic does (spec/10_state.md R25). -/
def setCpsr (s : State) (w : Word) : State := { s with cpsr := w }

/-! ### Memory (spec/20_memory.md) -/

/-- Replace data memory. Only `MemWrite` does (spec/10_state.md R29). -/
def setMem (s : State) (m : Memory) : State := { s with mem := m }

/-- What a byte that no cell lists reads as: every word is 0 after creation and reset (spec/10_state.md R29). -/
def unlistedByte : Byte := 0

/-- The byte at an address. -/
def readByte : Memory → Nat → Byte
  | [], _ => unlistedByte
  | (b, v) :: m, a => if b = a then v else readByte m a

/-- The memory without the cells of an address. -/
def eraseByte (m : Memory) (a : Nat) : Memory := m.filter (fun c => c.1 != a)

/-- Put a cell before the first cell of a higher address. -/
def insertByte : Memory → Nat → Byte → Memory
  | [], a, v => [(a, v)]
  | (b, w) :: m, a, v => if a < b then (a, v) :: (b, w) :: m else (b, w) :: insertByte m a v

/-- Write a byte and keep the canonical form. -/
def writeByte (m : Memory) (a : Nat) (v : Byte) : Memory :=
  if v = unlistedByte then eraseByte m a else insertByte (eraseByte m a) a v

/-- Every address of the memory is above `lo`, addresses rise strictly, and no cell holds what an unlisted byte reads
as. -/
def wfAbove : Option Nat → Memory → Bool
  | _, [] => true
  | lo, (b, v) :: m =>
    (match lo with | none => true | some l => decide (l < b)) && decide (v ≠ unlistedByte) && wfAbove (some b) m

/-- The canonical form of memory (log 3). -/
def Memory.wf (m : Memory) : Bool := wfAbove none m

/-- Byte `i` (0 lowest) of a word. -/
def byteOf (v : Word) (i : Nat) : Byte := v.extractLsb' (8 * i) 8

/-- The word whose four bytes start at a byte address, lowest byte first (log 3). -/
def readWord (m : Memory) (a : Nat) : Word :=
  readByte m (a + 3) ++ readByte m (a + 2) ++ readByte m (a + 1) ++ readByte m a

/-- Write a word's four bytes from a byte address up, lowest byte first (log 3). -/
def writeWord (m : Memory) (a : Nat) (v : Word) : Memory :=
  writeByte (writeByte (writeByte (writeByte m a (byteOf v 0)) (a + 1) (byteOf v 1)) (a + 2) (byteOf v 2))
    (a + 3) (byteOf v 3)

/-- `WordIndex(a)`: the alignment check, then the translation and the range check (R52 to R55). -/
def wordIndex (p : Params) (a : Nat) : Except RunError Nat :=
  if a % 4 ≠ 0 then .error (.misaligned a)
  else
    let k : Int := ((a : Int) - (p.physMemBase : Int)) / 4
    if k < 0 ∨ (p.memWords : Int) ≤ k then .error (.outOfWindow a)
    else .ok k.toNat

/-- `MemRead(a, 4)` (R55). -/
def memRead (s : State) (a : Nat) : Except RunError Word :=
  match wordIndex s.params a with
  | .error e => .error e
  | .ok _ => .ok (readWord s.mem a)

/-- `MemWrite(a, 4, v)` (R55). -/
def memWrite (s : State) (a : Nat) (v : Word) : Except RunError State :=
  match wordIndex s.params a with
  | .error e => .error e
  | .ok _ => .ok (setMem s (writeWord s.mem a v))

/-- The byte address of data word `k` (R54). -/
def wordAddr (p : Params) (k : Nat) : Nat := p.physMemBase + 4 * k

/-! ### Target write, program store and labels -/

/-- `TargetIndex` (spec/40_engine_and_operands.md R146). -/
def targetIndex : Target → Except RunError RegNum
  | .reg r => .ok r
  | .bad t => .error (.stateModification t)

/-- `length(operations)` of the loaded program; 0 with none loaded. -/
def progLength (s : State) : Nat := (s.lp.map (fun p => p.operations.length)).getD 0

/-- The loaded program's label table; empty with none loaded. -/
def progLabels (s : State) : List (Text × List Nat) := (s.lp.map (fun p => p.labels)).getD []

/-- `LookupLabel(labels, name)` (spec/46_branch.md R241). -/
def lookupLabel (tbl : List (Text × List Nat)) (name : Text) : Except RunError Nat :=
  match labelIndices tbl name with
  | [] => .error (.unresolvedLabel name)
  | [k] => .ok k
  | k :: k' :: ks => .error (.ambiguousLabel name (k :: k' :: ks))

/-! ### Errors (spec/60_exceptions.md) -/

/-- The kind of a runtime error (R250). -/
def RunError.kind : RunError → ErrorKind
  | .decodeError _ => .decodeErrorResolution
  | .misaligned _ => .addressingErrorMisaligned
  | .outOfWindow _ => .addressingErrorOutOfWindow
  | .stateModification _ => .stateModificationException
  | .unresolvedLabel _ => .unresolvedLabelError
  | .ambiguousLabel _ _ => .ambiguousLabelError
  | .reservedOperation _ => .reservedOperation

/-- The numeric code of a kind (R250). -/
def ErrorKind.code : ErrorKind → Nat
  | .decodeErrorBuild => 1
  | .decodeErrorResolution => 2
  | .addressingErrorMisaligned => 3
  | .addressingErrorOutOfWindow => 4
  | .stateModificationException => 5
  | .unresolvedLabelError => 6
  | .ambiguousLabelError => 7
  | .reservedOperation => 8

/-- The fields `kind` and `code` of a runtime error's record (R259). -/
def ErrorRecord.kind (e : ErrorRecord) : ErrorKind := e.error.kind
def ErrorRecord.code (e : ErrorRecord) : Nat := e.error.kind.code

/-- TAKING A RUNTIME ERROR (R261): registers, CPSR, MEM and pc keep the values they had at the start of the step, and
`ST <- Faulted(e)` where `e` names the operation at pc (R259). Nothing is saved and control goes to no handler, so there
is no return beside it (R262): a further step runs the same operation again, and RESET or LOAD clears the status
(Machine/Commands.lean). `s` is the state at the start of the step (R129). -/
def takeError (s : State) (e : RunError) : State := { s with st := .faulted ⟨e, s.pc⟩ }

/-! ### The end of a step -/

/-- The step result of a completed step, held in ST (R130, spec/70_reset_and_hazards.md R285): Halted where the new pc
is at or past the program's end, otherwise Ready, which is Continued. -/
def complete (s : State) : State := { s with st := if progLength s ≤ s.pc then .halted else .ready }

/-- `pc <- pc + 1` (spec/40_engine_and_operands.md R128). -/
def advance (s : State) : State := { s with pc := s.pc + 1 }

/-- `pc <- next` (spec/40_engine_and_operands.md R128). -/
def jumpTo (s : State) (k : Nat) : State := { s with pc := k }

/-! ### Fetch (spec/40_engine_and_operands.md R120, R121, R123) -/

/-- What a fetch at pc finds. -/
inductive Fetched where
  /-- No program is loaded. -/
  | idle
  /-- pc is at or past the program's end (R121). -/
  | terminal
  /-- The bundle is rejected. -/
  | rejected (r : Reject)
  /-- The bundle decodes. -/
  | instr (i : Instr)
  deriving DecidableEq, Repr

/-- Fetch and decode the operation at pc. -/
def fetch (s : State) : Fetched :=
  match s.lp with
  | none => .idle
  | some p =>
    match p.operations[s.pc]? with
    | none => .terminal
    | some o =>
      match decodeBundle o.bundle with
      | .error r => .rejected r
      | .ok i => .instr i

/-- A step that finds pc at the end executes nothing and returns Halted (R121). -/
def haltStep (s : State) : State := { s with st := .halted }

/-- LOAD(P): `LP <- P`, `pc <- 0`, `ST <- Ready`; registers, CPSR and MEM are kept (spec/70_reset_and_hazards.md R283).
It stands here because `withFetchWord` loads a program too (log 8). -/
def load (p : Program) (s : State) : State := { s with lp := some p, pc := 0, st := .ready }

end Sys2Proof.Machine

namespace Sys2Proof

/-- The fields `kind` and `code` of a build error's record: kind DecodeError at build, code 1 (spec/60_exceptions.md R250,
R259). -/
def BuildError.kind (_ : BuildError) : Machine.ErrorKind := .decodeErrorBuild
def BuildError.code (e : BuildError) : Nat := e.kind.code

end Sys2Proof
end

