-- ==== Sys2Proof/Machine/Operands.lean ====
section
/-!
DEFINITION. The Operand Resolver and the shifter (spec/40_engine_and_operands.md R131 to R144).
-/
namespace Sys2Proof.Machine

/-- The C flag of a CPSR word, bit 29 (spec/10_state.md R24). -/
def flagC (w : Word) : Bool := w.getLsbD 29

/-- The effective shift amount `n` (R138). -/
def shiftAmount (rule : ShiftAmountRule) (amt : Word) : Nat :=
  match rule with
  | .armReg => amt.toNat % 256
  | .mask5 => amt.toNat % 32

/-- LSL by `n` (R139). -/
def lslFn (v : Word) (n : Nat) : Word := if n < 32 then v <<< n else 0

/-- LSR by `n` (R140). -/
def lsrFn (v : Word) (n : Nat) : Word := if n < 32 then v >>> n else 0

/-- ASR by `n` (R141). -/
def asrFn (v : Word) (n : Nat) : Word :=
  if n < 32 then v.sshiftRight n else if v.getLsbD 31 then 0xFFFFFFFF else 0

/-- ROR by `n` (R142). -/
def rorFn (v : Word) (n : Nat) : Word :=
  if n % 32 = 0 then v else (v >>> (n % 32)) ||| (v <<< (32 - n % 32))

/-- RRX: `{c, v[31:1]}` (R143). -/
def rrxFn (v : Word) (c : Bool) : Word := BitVec.ofBool c ++ v.extractLsb' 1 31

/-- `ShiftFn(kind, v, amt, c)` (R138 to R143). It writes nothing (R144). -/
def shiftFn (rule : ShiftAmountRule) (kind : ShiftKind) (v amt : Word) (c : Bool) : Word :=
  match kind with
  | .lsl => lslFn v (shiftAmount rule amt)
  | .lsr => lsrFn v (shiftAmount rule amt)
  | .asr => asrFn v (shiftAmount rule amt)
  | .ror => rorFn v (shiftAmount rule amt)
  | .rrx => rrxFn v c

/-- `Resolve` of a token's class (R131 to R134, R136). -/
def resolveSimple (s : State) : Simple → Except RunError Word
  | .reg r => .ok (readReg s r)
  | .cpsr => .ok s.cpsr
  | .imm v => .ok v
  | .memInd r => .ok (readReg s r)
  | .bad t => .error (.decodeError t)

/-- The amount of a shift operand: 0 where there is none (R135). -/
def resolveAmount (s : State) : Option Simple → Except RunError Word
  | none => .ok 0
  | some a => resolveSimple s a

/-- `Resolve` (R131 to R137): the value of a shift operand before its amount. -/
def resolve (s : State) : Operand → Except RunError Word
  | .simple o => resolveSimple s o
  | .shift kind before after =>
    match resolveSimple s before with
    | .error e => .error e
    | .ok v =>
      match resolveAmount s after with
      | .error e => .error e
      | .ok amt => .ok (shiftFn s.params.shiftAmountRule kind v amt (flagC s.cpsr))

/-- Two sources in list order (R137). -/
def resolveTwo (s : State) (x y : Operand) : Except RunError (Word × Word) :=
  match resolve s x with
  | .error e => .error e
  | .ok a =>
    match resolve s y with
    | .error e => .error e
    | .ok b => .ok (a, b)

end Sys2Proof.Machine
end

