-- ==== Sys2Proof/Machine/Flags.lean ====
section
/-!
DEFINITION. The condition evaluator and the flag-update logic (spec/41_conditions_and_flags.md). The flags' places are
those of spec/10_state.md R24.
-/
namespace Sys2Proof.Machine

/-- The N flag, bit 31. -/
def flagN (w : Word) : Bool := w.getLsbD 31

/-- The Z flag, bit 30. -/
def flagZ (w : Word) : Bool := w.getLsbD 30

/-- The V flag, bit 28. -/
def flagV (w : Word) : Bool := w.getLsbD 28

/-- `CondHolds(cond, CPSR)` (R150). -/
def condHolds (c : Cond) (w : Word) : Bool :=
  match c with
  | .eq => flagZ w
  | .ne => !flagZ w
  | .cs => flagC w
  | .cc => !flagC w
  | .mi => flagN w
  | .pl => !flagN w
  | .vs => flagV w
  | .vc => !flagV w
  | .hi => flagC w && !flagZ w
  | .ls => !flagC w || flagZ w
  | .ge => flagN w == flagV w
  | .lt => flagN w != flagV w
  | .gt => !flagZ w && (flagN w == flagV w)
  | .le => flagZ w || (flagN w != flagV w)
  | .al => true
  | .nv => false

/-- The condition stage of an operation: an absent condition always holds (R151). -/
def suffixHolds (f : Suffix) (w : Word) : Bool :=
  match f.cond with
  | none => true
  | some c => condHolds c w

/-- A result with the unbounded raw results `U` and `S` (R153). -/
structure Raw where
  res : Word
  u   : Int
  s   : Int
  deriving DecidableEq, Repr

/-- `AddRaw(x, y, cin)` and `res = trunc32(U)` (R153). -/
def addRaw (x y : Word) (cin : Bool) : Raw :=
  let u : Int := (x.toNat : Int) + (y.toNat : Int) + (cin.toNat : Int)
  { res := BitVec.ofInt 32 u, u := u, s := x.toInt + y.toInt + (cin.toNat : Int) }

/-- `SubRaw(x, y, bin)` and `res = trunc32(U)` (R153). -/
def subRaw (x y : Word) (bin : Bool) : Raw :=
  let u : Int := (x.toNat : Int) - (y.toNat : Int) - (bin.toNat : Int)
  { res := BitVec.ofInt 32 u, u := u, s := x.toInt - y.toInt - (bin.toNat : Int) }

/-- A computation of mode SHIFT or OTHER gives `res` only (R153); `SetFlags` reads neither raw result in those modes. -/
def Raw.ofRes (res : Word) : Raw := { res := res, u := 0, s := 0 }

/-- The carry that `SetFlags` writes (R155). -/
def newC (mode : FlagMode) (u : Int) : Bool :=
  match mode with
  | .add => decide (0xFFFFFFFF < u)
  | .sub => decide (0 ≤ u)
  | .shift | .other => false

/-- The overflow that `SetFlags` writes (R156). -/
def newV (mode : FlagMode) (x : Int) : Bool :=
  match mode with
  | .add | .sub => decide (x < -2 ^ 31) || decide (2 ^ 31 - 1 < x)
  | .shift | .other => false

/-- A CPSR word with its four flags replaced and bits 27:0 kept (R157). -/
def withFlags (w : Word) (n z c v : Bool) : Word :=
  BitVec.ofBool n ++ (BitVec.ofBool z ++ (BitVec.ofBool c ++ (BitVec.ofBool v ++ w.extractLsb' 0 28)))

/-- `SetFlags(mode, res, U, S)` on a CPSR word (R154 to R157). -/
def setFlags (mode : FlagMode) (r : Raw) (w : Word) : Word :=
  withFlags w (r.res.getLsbD 31) (decide (r.res = 0)) (newC mode r.u) (newV mode r.s)

end Sys2Proof.Machine
end

