-- ==== Sys2Proof/Machine/Shapes.lean ====
section
/-!
DEFINITION. The condition stage and the four execution shapes (spec/40_engine_and_operands.md R120 to R130). Every
meaning is one shape applied to its own computation.
-/
namespace Sys2Proof.Machine

/-- What an instruction's meaning answers. -/
abbrev Result := Host.Outcome State Fault Refusal

/-- One operation from its condition on (R120). `body` is the shape on the start-of-step state: it answers the state with
the operation's writes and the new pc, or the error it raises. A false condition skips the operation: pc advances and
nothing is resolved (R122). An error leaves everything but ST (R129, R261). -/
def runOperation (f : Suffix) (body : State → Except RunError State) (s : State) : Result :=
  if suffixHolds f s.cpsr then
    match body s with
    | .error e => .next (takeError s e)
    | .ok t => .next (complete t)
  else .next (complete (advance s))

/-- The Register-update shape (R124): compute, find the target, write it, set the flags if `S` was given. -/
def regUpdateBody (mode : FlagMode) (setS : Bool) (rd : Target) (compute : State → Except RunError Raw) (s : State) :
    Except RunError State :=
  match compute s with
  | .error e => .error e
  | .ok r =>
    match targetIndex rd with
    | .error e => .error e
    | .ok d =>
      let t := writeReg s d r.res
      .ok (advance (if setS then setCpsr t (setFlags mode r t.cpsr) else t))

/-- The Compare-only shape (R125): compute, discard the result, always set the flags. -/
def compareBody (mode : FlagMode) (compute : State → Except RunError Raw) (s : State) : Except RunError State :=
  match compute s with
  | .error e => .error e
  | .ok r => .ok (advance (setCpsr s (setFlags mode r s.cpsr)))

/-- The Store shape (R126, spec/45_load_store.md R231): the value, then the address, then the write. -/
def storeBody (value address : Operand) (s : State) : Except RunError State :=
  match resolveTwo s value address with
  | .error e => .error e
  | .ok (v, a) =>
    match memWrite s a.toNat v with
    | .error e => .error e
    | .ok t => .ok (advance t)

/-- The Branch shape (R127, spec/46_branch.md R240). -/
def branchBody (label : Text) (s : State) : Except RunError State :=
  match lookupLabel (progLabels s) label with
  | .error e => .error e
  | .ok k => .ok (jumpTo s k)

/-- A computation on two resolved sources and the start-of-step C flag. -/
def computeTwo (x y : Operand) (f : Word → Word → Bool → Raw) (s : State) : Except RunError Raw :=
  match resolveTwo s x y with
  | .error e => .error e
  | .ok (a, b) => .ok (f a b (flagC s.cpsr))

/-- A computation on one resolved source and the start-of-step C flag. -/
def computeOne (x : Operand) (f : Word → Bool → Word) (s : State) : Except RunError Raw :=
  match resolve s x with
  | .error e => .error e
  | .ok a => .ok (Raw.ofRes (f a (flagC s.cpsr)))

/-- The computation of LSL, LSR, ASR and ROR: the shifter on the two sources (spec/43_shifts.md R200 to R203). -/
def computeShift (kind : ShiftKind) (x amount : Operand) (s : State) : Except RunError Raw :=
  computeTwo x amount (fun a b c => Raw.ofRes (shiftFn s.params.shiftAmountRule kind a b c)) s

/-- The computation of LDR (spec/45_load_store.md R230): a load where `MEM_INDIRECT_LOADS` is true and the source is
exactly `[Rn]`, otherwise the resolved source. -/
def computeLoad (x : Operand) (s : State) : Except RunError Raw :=
  match s.params.memIndirectLoads, x with
  | true, .simple (.memInd n) =>
    match memRead s (readReg s n).toNat with
    | .error e => .error e
    | .ok v => .ok (Raw.ofRes v)
  | _, _ => computeOne x (fun a _ => a) s

end Sys2Proof.Machine
end

