-- ==== Sys2Proof/Machine/Arith.lean ====
section
/-!
DEFINITION. ADD, ADC, SUB, SBC, RSB, RSC, MOV and MVN (spec/42_arithmetic_move.md).
-/
namespace Sys2Proof.Machine

/-- The functions of R170 to R177 on the resolved sources `a`, `b` and the carry `c`. -/
def addFn (a b : Word) (_ : Bool) : Raw := addRaw a b false
def adcFn (a b : Word) (c : Bool) : Raw := addRaw a b c
def subFn (a b : Word) (_ : Bool) : Raw := subRaw a b false
def sbcFn (a b : Word) (c : Bool) : Raw := subRaw a b (!c)
def rsbFn (a b : Word) (_ : Bool) : Raw := subRaw b a false
def rscFn (a b : Word) (c : Bool) : Raw := subRaw b a (!c)

/-- ADD (R170). -/
def execAdd (f : Suffix) (rd : Target) (op1 op2 : Operand) (s : State) : Result :=
  runOperation f (regUpdateBody .add f.s rd (computeTwo op1 op2 addFn)) s

/-- ADC (R171). -/
def execAdc (f : Suffix) (rd : Target) (op1 op2 : Operand) (s : State) : Result :=
  runOperation f (regUpdateBody .add f.s rd (computeTwo op1 op2 adcFn)) s

/-- SUB (R172). -/
def execSub (f : Suffix) (rd : Target) (op1 op2 : Operand) (s : State) : Result :=
  runOperation f (regUpdateBody .sub f.s rd (computeTwo op1 op2 subFn)) s

/-- SBC (R173). -/
def execSbc (f : Suffix) (rd : Target) (op1 op2 : Operand) (s : State) : Result :=
  runOperation f (regUpdateBody .sub f.s rd (computeTwo op1 op2 sbcFn)) s

/-- RSB (R174). -/
def execRsb (f : Suffix) (rd : Target) (op1 op2 : Operand) (s : State) : Result :=
  runOperation f (regUpdateBody .sub f.s rd (computeTwo op1 op2 rsbFn)) s

/-- RSC (R175). -/
def execRsc (f : Suffix) (rd : Target) (op1 op2 : Operand) (s : State) : Result :=
  runOperation f (regUpdateBody .sub f.s rd (computeTwo op1 op2 rscFn)) s

/-- MOV (R176). -/
def execMov (f : Suffix) (rd : Target) (op : Operand) (s : State) : Result :=
  runOperation f (regUpdateBody .shift f.s rd (computeOne op (fun a _ => a))) s

/-- MVN (R177). -/
def execMvn (f : Suffix) (rd : Target) (op : Operand) (s : State) : Result :=
  runOperation f (regUpdateBody .shift f.s rd (computeOne op (fun a _ => ~~~a))) s

end Sys2Proof.Machine
end

