-- ==== Sys2Proof/Machine/Branch.lean ====
section
/-!
DEFINITION. B (spec/46_branch.md).
-/
namespace Sys2Proof.Machine

/-- B (R240). `S` has no effect (spec/30_encoding.md R77). -/
def execB (f : Suffix) (label : Text) (s : State) : Result :=
  runOperation f (branchBody label) s

end Sys2Proof.Machine
end

