-- ==== Sys2Proof/Machine/Compare.lean ====
section
/-!
DEFINITION. CMP, CMN, TST and TEQ (spec/44_compare.md). `S` has no effect on them (spec/30_encoding.md R77).
-/
namespace Sys2Proof.Machine

/-- The functions of R222 and R223 on the resolved sources. -/
def tstFn (a b : Word) (_ : Bool) : Raw := Raw.ofRes (a &&& b)
def teqFn (a b : Word) (_ : Bool) : Raw := Raw.ofRes (a ^^^ b)

/-- CMP (R220). -/
def execCmp (f : Suffix) (op1 op2 : Operand) (s : State) : Result :=
  runOperation f (compareBody .sub (computeTwo op1 op2 subFn)) s

/-- CMN (R221). -/
def execCmn (f : Suffix) (op1 op2 : Operand) (s : State) : Result :=
  runOperation f (compareBody .add (computeTwo op1 op2 addFn)) s

/-- TST (R222). -/
def execTst (f : Suffix) (op1 op2 : Operand) (s : State) : Result :=
  runOperation f (compareBody .shift (computeTwo op1 op2 tstFn)) s

/-- TEQ (R223). -/
def execTeq (f : Suffix) (op1 op2 : Operand) (s : State) : Result :=
  runOperation f (compareBody .shift (computeTwo op1 op2 teqFn)) s

end Sys2Proof.Machine
end

