-- ==== Sys2Proof/Machine/LoadStore.lean ====
section
/-!
DEFINITION. LDR and STR (spec/45_load_store.md).
-/
namespace Sys2Proof.Machine

/-- LDR (R230). -/
def execLdr (f : Suffix) (rd : Target) (op : Operand) (s : State) : Result :=
  runOperation f (regUpdateBody .other f.s rd (computeLoad op)) s

/-- STR (R231). `S` has no effect (spec/30_encoding.md R77). -/
def execStr (f : Suffix) (value address : Operand) (s : State) : Result :=
  runOperation f (storeBody value address) s

end Sys2Proof.Machine
end

