-- ==== Sys2Proof/Machine/Shifts.lean ====
section
/-!
DEFINITION. LSL, LSR, ASR, ROR and RRX as mnemonics (spec/43_shifts.md).
-/
namespace Sys2Proof.Machine

/-- LSL (R200). -/
def execLsl (f : Suffix) (rd : Target) (op1 amount : Operand) (s : State) : Result :=
  runOperation f (regUpdateBody .shift f.s rd (computeShift .lsl op1 amount)) s

/-- LSR (R201). -/
def execLsr (f : Suffix) (rd : Target) (op1 amount : Operand) (s : State) : Result :=
  runOperation f (regUpdateBody .shift f.s rd (computeShift .lsr op1 amount)) s

/-- ASR (R202). -/
def execAsr (f : Suffix) (rd : Target) (op1 amount : Operand) (s : State) : Result :=
  runOperation f (regUpdateBody .shift f.s rd (computeShift .asr op1 amount)) s

/-- ROR (R203). -/
def execRor (f : Suffix) (rd : Target) (op1 amount : Operand) (s : State) : Result :=
  runOperation f (regUpdateBody .shift f.s rd (computeShift .ror op1 amount)) s

/-- RRX (R204): `ShiftFn(RRX, a, 0, c)`. -/
def execRrx (f : Suffix) (rd : Target) (op : Operand) (s : State) : Result :=
  runOperation f (regUpdateBody .shift f.s rd
    (computeOne op (fun a c => shiftFn s.params.shiftAmountRule .rrx a 0 c))) s

end Sys2Proof.Machine
end

