-- ==== Sys2Proof/Machine/Dispatch.lean ====
section
/-!
DEFINITION. One arm per constructor of Instr (spec/40_engine_and_operands.md R123).
-/
namespace Sys2Proof.Machine

def exec (i : Instr) (s : State) : Host.Outcome State Fault Refusal :=
  match i with
  | .sub f rd op1 op2 => Sys2Proof.Machine.execSub f rd op1 op2 s
  | .rsb f rd op1 op2 => Sys2Proof.Machine.execRsb f rd op1 op2 s
  | .add f rd op1 op2 => Sys2Proof.Machine.execAdd f rd op1 op2 s
  | .adc f rd op1 op2 => Sys2Proof.Machine.execAdc f rd op1 op2 s
  | .sbc f rd op1 op2 => Sys2Proof.Machine.execSbc f rd op1 op2 s
  | .rsc f rd op1 op2 => Sys2Proof.Machine.execRsc f rd op1 op2 s
  | .tst f op1 op2 => Sys2Proof.Machine.execTst f op1 op2 s
  | .teq f op1 op2 => Sys2Proof.Machine.execTeq f op1 op2 s
  | .cmp f op1 op2 => Sys2Proof.Machine.execCmp f op1 op2 s
  | .cmn f op1 op2 => Sys2Proof.Machine.execCmn f op1 op2 s
  | .mov f rd op => Sys2Proof.Machine.execMov f rd op s
  | .mvn f rd op => Sys2Proof.Machine.execMvn f rd op s
  | .lsl f rd op1 amount => Sys2Proof.Machine.execLsl f rd op1 amount s
  | .lsr f rd op1 amount => Sys2Proof.Machine.execLsr f rd op1 amount s
  | .asr f rd op1 amount => Sys2Proof.Machine.execAsr f rd op1 amount s
  | .ror f rd op1 amount => Sys2Proof.Machine.execRor f rd op1 amount s
  | .rrx f rd op => Sys2Proof.Machine.execRrx f rd op s
  | .ldr f rd op => Sys2Proof.Machine.execLdr f rd op s
  | .str f value address => Sys2Proof.Machine.execStr f value address s
  | .b f label => Sys2Proof.Machine.execB f label s

end Sys2Proof.Machine
end

