-- ==== Sys2Proof/Machine/Step.lean ====
section
/-!
DEFINITION. One step of the engine on the program already loaded (spec/40_engine_and_operands.md R120), with the status
the host's STEP command leaves (spec/70_reset_and_hazards.md R285).
-/
namespace Sys2Proof.Machine

/-- One step. The reserved check comes before the condition (R123). With no program loaded the engine does nothing
(spec/60_exceptions.md R271; log 5). -/
def step (s : State) : Host.Outcome State Fault Refusal :=
  match fetch s with
  | .idle => .next s
  | .terminal => .next (haltStep s)
  | .rejected (.reservedOperation h) => .next (takeError s (.reservedOperation h))
  | .rejected (.malformedBundle h) => .fault (.malformedBundle h)
  | .instr i => exec i s

/-- `s` with a one-operation program of the table word loaded (log 8), so that the next step runs it. -/
def State.withFetchWord (s : State) (nbits w : Nat) : State := load (programOfWord nbits w) s

end Sys2Proof.Machine
end

