-- ==== Sys2Proof/Machine/Commands.lean ====
section
/-!
DEFINITION. The host's commands (spec/70_reset_and_hazards.md R280 to R291), each one function on the state. Commands do
not overlap (R289), so one function call is one command from its start to its end.
-/
namespace Sys2Proof.Machine

/-- CREATE (R280): the initial state, or none where the configuration breaks spec/00_scope.md R7. `p` holds the
configuration {memSizeWords, physMemOffset} and the parameters fixed for the model as a whole. -/
def cmdCreate (p : Params) : Option State := if p.valid then some (State.initial p) else none

/-- RESET (R281): everything as after CREATE, in place; the configuration stays. -/
def cmdReset (s : State) : State :=
  { s with regs := Vector.replicate 16 0, cpsr := 0, mem := [], pc := 0, st := .ready, lp := none }

/-- LOAD(P) (R283). -/
def cmdLoad (p : Program) (s : State) : State := load p s

/-- STEP(P) (R285): a program that is not the loaded one, compared as a value, is loaded first. -/
def cmdStep (p : Program) (s : State) : Result := step (if s.lp = some p then s else cmdLoad p s)

/-- `StepResult` (spec/40_engine_and_operands.md R130). -/
inductive StepResult where
  | continued
  | halted
  | error (e : ErrorRecord)
  deriving DecidableEq, Repr

/-- The result a completed STEP returns, which ST records (spec/10_state.md R27, R285). -/
def stepResult (s : State) : StepResult :=
  match s.st with
  | .ready => .continued
  | .halted => .halted
  | .faulted e => .error e

/-- How a RUN ends. `outOfFuel` is the model's own, not a hardware result (spec/60_exceptions.md R272, log 10). -/
inductive RunResult where
  | done (s : State)
  | error (e : ErrorRecord) (s : State)
  | outOfFuel (s : State)
  | stopped (f : Fault)
  | refused (r : Refusal)
  deriving DecidableEq, Repr

/-- The loop of R284, for at most a number of steps. -/
def runLoop : Nat → State → RunResult
  | 0, s => .outOfFuel s
  | n + 1, s =>
    match step s with
    | .fault f => .stopped f
    | .refused r => .refused r
    | .next t =>
      match stepResult t with
      | .continued => runLoop n t
      | .halted => .done t
      | .error e => .error e t

/-- RUN(P) (R284): LOAD(P), then steps until Halted or Error. -/
def cmdRun (fuel : Nat) (p : Program) (s : State) : RunResult := runLoop fuel (cmdLoad p s)

/-- `snapshotRegisters` (R286, spec/10_state.md R34): R0 to R15 by number, then cpsr. -/
def snapshotRegisters (s : State) : List (Text × Word) :=
  (List.finRange 16).map (fun r => (('R' :: regDigits r), readReg s r)) ++ [(['c', 'p', 's', 'r'], s.cpsr)]

/-- `snapshotMemory` (R286, spec/10_state.md R34): `MEM[0 .. MEM_WORDS-1]` in order. -/
def snapshotMemory (s : State) : List Word :=
  (List.range s.params.memWords).map (fun k => readWord s.mem (wordAddr s.params k))

/-- One command of the host, with what it sends (R290). -/
inductive Command where
  | reset
  | load (p : Program)
  | run (p : Program)
  | step (p : Program)
  | snapshot
  deriving DecidableEq, Repr

/-- The state after a command that returned (R290, R291): `none` where a RUN has not returned within the budget or the
model stopped. CREATE makes a state and is `cmdCreate`. -/
def runCommand (fuel : Nat) (c : Command) (s : State) : Option State :=
  match c with
  | .reset => some (cmdReset s)
  | .load p => some (cmdLoad p s)
  | .run p =>
    match cmdRun fuel p s with
    | .done t => some t
    | .error _ t => some t
    | .outOfFuel _ => none
    | .stopped _ => none
    | .refused _ => none
  | .step p =>
    match cmdStep p s with
    | .next t => some t
    | .fault _ => none
    | .refused _ => none
  | .snapshot => some s

end Sys2Proof.Machine
end

