-- ==== Sys2Proof/Safety.lean ====
section
/-!
DEFINITION. What holds of every state a host can reach with programs from `parseProgram`, and what an ended run is.
-/
namespace Sys2Proof.Machine

/-- The operations of a Program are numbered by their position and its label table is that of R89
(spec/30_encoding.md R71, R83, R89). -/
def Program.wf (p : Program) : Bool :=
  decide (p.operations.map (fun o => o.lineIndex) = List.range p.operations.length) &&
    decide (p.labels = labelTable p.operations)

/-- Every bundle of a Program decodes, as those of the Decoder do (spec/30_encoding.md R94). -/
def Program.decodes (p : Program) : Bool :=
  p.operations.all (fun o => match decodeBundle o.bundle with | .ok _ => true | .error _ => false)

/-- CPSR bits 27:0 are 0 (spec/10_state.md R24). -/
def cpsrClean (s : State) : Bool := decide (s.cpsr.extractLsb' 0 28 = 0)

/-- Every cell of memory lies in the data window (spec/20_memory.md R59). -/
def memInWindow (s : State) : Bool :=
  s.mem.all (fun c => decide (s.params.physMemBase ≤ c.1) &&
    decide (c.1 < s.params.physMemBase + 4 * s.params.memWords))

/-- The status agrees with the cursor: after Halted pc is at the end (spec/40_engine_and_operands.md R130), and a fault
record names the operation at pc (spec/60_exceptions.md R259, R261). -/
def statusOk (s : State) : Bool :=
  match s.st with
  | .ready => true
  | .halted => decide (progLength s ≤ s.pc)
  | .faulted e => decide (e.pc = s.pc) && decide (s.pc < progLength s)

/-- The invariant of the machine. Its parts are checks of the fields: parameters as R7 allows, memory canonical and inside
the window, CPSR bits 27:0 zero, a loaded program as the Program Builder makes it, the cursor never past the end
(spec/10_state.md R26) and the status in agreement with it. -/
structure State.Inv (s : State) : Prop where
  params  : s.params.valid = true
  memWf   : s.mem.wf = true
  window  : memInWindow s = true
  cpsr    : cpsrClean s = true
  program : ∀ p, s.lp = some p → Program.wf p = true
  cursor  : s.pc ≤ progLength s
  status  : statusOk s = true

/-- The loaded program, if any, came from the Decoder: no reserved and no malformed bundle. -/
def State.Decodes (s : State) : Prop := ∀ p, s.lp = some p → Program.decodes p = true

/-- A completed run (spec/70_reset_and_hazards.md R287): RUN returned Done. A faulted run is not a completed one. -/
def RunsDone (fuel : Nat) (p : Program) (s t : State) : Prop := cmdRun fuel p s = .done t

/-- The state after a number of steps that all returned Continued; `none` where one did not. -/
def continueFor : Nat → State → Option State
  | 0, s => some s
  | n + 1, s =>
    match step s with
    | .next t => if stepResult t = .continued then continueFor n t else none
    | .fault _ => none
    | .refused _ => none

/-! ### The terms that statements about instructions use -/

/-- What every completed operation but a taken branch leaves: the cursor one further, the status by the program's end, and
program and parameters as they were (spec/40_engine_and_operands.md R128, R130). -/
structure NextOp (s t : State) : Prop where
  pc     : t.pc = s.pc + 1
  st     : t.st = if progLength s ≤ s.pc + 1 then .halted else .ready
  lp     : t.lp = s.lp
  params : t.params = s.params

/-- One register written and no other, memory as it was, the operation complete. -/
structure WroteReg (s t : State) (d : RegNum) (v : Word) : Prop where
  value  : readReg t d = v
  others : ∀ r, r ≠ d → readReg t r = readReg s r
  mem    : t.mem = s.mem
  next   : NextOp s t

/-- No register and no memory written, the operation complete. -/
structure WroteNone (s t : State) : Prop where
  regs : ∀ r, readReg t r = readReg s r
  mem  : t.mem = s.mem
  next : NextOp s t

/-- The CPSR word `w'` has these flags, and bits 27:0 of `w` (spec/41_conditions_and_flags.md R157). -/
structure FlagsSet (w w' : Word) (n z c v : Bool) : Prop where
  n    : flagN w' = n
  z    : flagZ w' = z
  c    : flagC w' = c
  v    : flagV w' = v
  rest : w'.extractLsb' 0 28 = w.extractLsb' 0 28

/-- The flags of a Register-update operation: set with `S`, otherwise all of CPSR as it was (R158). -/
def FlagsIf (setS : Bool) (w w' : Word) (n z c v : Bool) : Prop :=
  (setS = false → w' = w) ∧ (setS = true → FlagsSet w w' n z c v)

/-- An integer outside the signed 32-bit range (R156). -/
def overflows (z : Int) : Bool := decide (z < -2 ^ 31) || decide (2 ^ 31 ≤ z)

/-- The instruction raises an error: nothing changes but ST, which names the error and the operation
(spec/60_exceptions.md R259, R261; answered as a next state, log 4). -/
def Traps (i : Instr) (s : State) (e : RunError) : Prop := exec i s = .next { s with st := .faulted ⟨e, s.pc⟩ }

/-- The token of a `Bad` operand. -/
def Simple.badToken : Simple → Option Text
  | .bad t => some t
  | _ => none

/-- The first `Bad` token of an operand in the order of resolution (spec/40_engine_and_operands.md R137). -/
def Operand.firstBad : Operand → Option Text
  | .simple o => Simple.badToken o
  | .shift _ before after =>
    match Simple.badToken before with
    | some t => some t
    | none => after.bind Simple.badToken

end Sys2Proof.Machine
end

