-- ==== Sys2Proof/Certificates/Slice0/Obligations.lean ====
section
/-!
DEFINITION. The statements for the provers. Each docstring names the rule or the sections of spec/ it rests on, and the
assumption-log entry where it rests on a choice of the model's.
-/
open Sys2Proof Sys2Proof.Machine

/-! ### Text, bundles and programs -/

/-- Decode of encode is the instruction, for every instruction and every operand value (30_encoding.md section 6: the
layout is the spec's own choice D1 to D3; descriptors as typed data are log 1). -/
def Obligations.DecodeOfEncodeIsTheInstruction : Prop :=
  ∀ i : Instr, decodeBundle (encode i) = .ok i

/-- The line that spells a well-formed instruction, with or without a label, decodes to that label and instruction
(30_encoding.md sections 2, 3 and 7; the character classes are the spec's choices D8, D11, D13, D14, D16). -/
def Obligations.DecodeOfLineIsTheInstruction : Prop :=
  ∀ (ex : ExtraConds) (lbl : Option Text) (i : Instr), i.wellFormed ex = true → labelOk lbl = true →
    parseLine ex (labelledLine lbl i) = .ok (lbl, i)

/-- Whatever the decoder reads from a filtered line is well-formed: Bad tokens are Bad, shifts do not nest, a first compare
source is no shift, NV only where enabled (30_encoding.md sections 2 and 3). -/
def Obligations.DecodedLinesAreWellFormed : Prop :=
  ∀ (ex : ExtraConds) (line : Text) (lbl : Option Text) (i : Instr),
    (∀ c ∈ line, c ≠ ';' ∧ c ≠ '\n') → parseLine ex line = .ok (lbl, i) →
      i.wellFormed ex = true ∧ labelOk lbl = true

/-- A header is refused exactly when its op field is 0, 1, 12, 14 or 24 to 31, or bits 15:11 are not all 0
(30_encoding.md section 6, the spec's choice D29). -/
def Obligations.ReservedHeadersAreExactlyThoseListed : Prop :=
  ∀ h : HeaderWord, decodeHeader h = none ↔
    (h.extractLsb' 0 5 ∈ [(0 : BitVec 5), 1, 12, 14] ∨ (24 : BitVec 5) ≤ h.extractLsb' 0 5 ∨
      h.extractLsb' 11 5 ≠ 0)

/-- Lines and header words written out from 30_encoding.md and its examples decode to what they stand for. -/
def Obligations.SpecLinesAndHeadersDecode : Prop :=
  parseLine Params.default.extraConds "ADDEQS R2, R0, R1".toList =
      .ok (none, .add ⟨some .eq, true⟩ (.reg 2) (.simple (.reg 0)) (.simple (.reg 1))) ∧
    parseLine Params.default.extraConds "loop B loop".toList = .ok (some "loop".toList, .b ⟨none, false⟩ "loop".toList) ∧
    parseLine Params.default.extraConds "MOV R0, R1, LSL #-1".toList =
      .ok (none, .mov ⟨none, false⟩ (.reg 0) (.shift .lsl (.reg 1) (some (.imm 0xFFFFFFFF)))) ∧
    parseLine Params.default.extraConds "STR cpsr, [PC]".toList =
      .ok (none, .str ⟨none, false⟩ (.simple .cpsr) (.simple (.memInd 15))) ∧
    parseLine Params.default.extraConds "ADDSEQ R2, R0, R1".toList = .error .grammar ∧
    decodeTableWord 16 0x03C4 = some (.add ⟨none, true⟩ (.reg 0) (.simple (.reg 0)) (.simple (.reg 0))) ∧
    decodeTableWord 16 0x0437 = some (.b ⟨some .ne, false⟩ []) ∧
    decodeTableWord 16 0x01CC = none

/-- An opword has at most one reading as (mnemonic, condition, S), under any extra spellings (30_encoding.md section 2,
derived there by enumeration). -/
def Obligations.OpwordHasOneReading : Prop :=
  ∀ (ex : ExtraConds) (t : Text) (m m' : Mnemonic) (f f' : Suffix),
    readOpword ex t m = some (m, f) → readOpword ex t m' = some (m', f') → m = m' ∧ f = f'

/-- The build takes an operand list exactly when it has the mnemonic's count (30_encoding.md section 3, D10), and the
instruction then has that mnemonic and those suffixes. -/
def Obligations.OperandCountsAreEnforced : Prop :=
  ∀ (m : Mnemonic) (f : Suffix) (tt : Text) (o : List Operand),
    (o.length = m.operandCount → ∃ i, buildInstr m f tt o = some i ∧ i.mnemonic = m ∧ i.suffix = f) ∧
      (o.length ≠ m.operandCount → buildInstr m f tt o = none)

/-- A failing build reports the first failing line, with its filtered index and text, as a DecodeError at build, code 1
(30_encoding.md section 5, D26; 60_exceptions.md section 1, record fields and codes D24). -/
def Obligations.FirstFailingLineIsReported : Prop :=
  ∀ (ex : ExtraConds) (text : Text) (e : BuildError), parseProgram ex text = .error e →
    ∃ before after, filterLines text = before ++ e.text :: after ∧ before.length = e.lineIndex ∧
      (∀ l ∈ before, ∃ r, parseLine ex l = .ok r) ∧ parseLine ex e.text = .error e.reason ∧
      e.kind = .decodeErrorBuild ∧ e.code = 1

/-- A successful build holds one operation per filtered line, in order, numbered by position, each the bundle of what its
line decodes to; its bundles decode and its label table is that of its operations (30_encoding.md sections 1, 5 and 6). -/
def Obligations.BuiltProgramsMatchTheirLines : Prop :=
  ∀ (ex : ExtraConds) (text : Text) (p : Program), parseProgram ex text = .ok p →
    p.operations.length = (filterLines text).length ∧
      (∀ k line, (filterLines text)[k]? = some line → ∃ lbl i, parseLine ex line = .ok (lbl, i) ∧
        p.operations[k]? = some (Operation.mk k lbl (encode i))) ∧
      Program.wf p = true ∧ Program.decodes p = true

/-- The label table maps each name to the ascending list of the indices of the operations that carry it, and a build
fails only through a line, never through labels (30_encoding.md section 5). -/
def Obligations.LabelTableListsEveryIndex : Prop :=
  (∀ (ops : List Operation) (name : Text), labelIndices (labelTable ops) name =
    (List.range ops.length).filter (fun k => (ops[k]?.bind (fun o => o.label)) == some name)) ∧
  (∀ (ex : ExtraConds) (text : Text), (∀ l ∈ filterLines text, ∃ r, parseLine ex l = .ok r) →
    ∃ p, parseProgram ex text = .ok p)

/-! ### Creation, reset and the host's commands -/

/-- R23: every general register is 0 after creation and after reset. -/
def Obligations.CreationAndResetZeroEveryRegister : Prop :=
  (∀ (p : Params) (s : State), cmdCreate p = some s → ∀ r, readReg s r = 0) ∧
    (∀ (s : State) (r : RegNum), readReg (cmdReset s) r = 0) ∧ (∀ r, readReg State.reset r = 0)

/-- RESET leaves the table of 10_state.md section 6 (pc, ST and LP there are the spec's choices D22, D23, D33), keeps the
parameters, and twice is once. -/
def Obligations.ResetLeavesTheTableAndIsIdempotent : Prop :=
  ∀ s : State, (∀ r, readReg (cmdReset s) r = 0) ∧ (cmdReset s).cpsr = 0 ∧ (∀ a, readByte (cmdReset s).mem a = 0) ∧
    (cmdReset s).pc = 0 ∧ (cmdReset s).st = .ready ∧ (cmdReset s).lp = none ∧ (cmdReset s).params = s.params ∧
    cmdReset (cmdReset s) = cmdReset s

/-- CREATE makes an engine exactly for the configurations of 00_scope.md section 3 (bounds D18, refusal D35). -/
def Obligations.CreateRefusesInvalidConfigurations : Prop :=
  ∀ p : Params,
    ((1 ≤ p.memWords ∧ p.physMemBase % 4 = 0 ∧ p.physMemBase + 4 * p.memWords ≤ 2 ^ 31) →
      cmdCreate p = some (State.initial p)) ∧
    (¬(1 ≤ p.memWords ∧ p.physMemBase % 4 = 0 ∧ p.physMemBase + 4 * p.memWords ≤ 2 ^ 31) → cmdCreate p = none)

/-- The configuration that CREATE is given is kept by every step and every command. That this holds of all five parameters
of 00_scope.md section 3 (R7: fixed for the lifetime of an engine), and that CREATE is given all five, is the model's choice,
log 2; 10_state.md section 4 says it of MEM_WORDS and PHYS_MEM_BASE. -/
def Obligations.ConfigurationNeverChanges : Prop :=
  (∀ (p : Params) (s : State), cmdCreate p = some s → s.params = p) ∧
    (∀ (fuel : Nat) (c : Command) (s t : State), runCommand fuel c s = some t → t.params = s.params) ∧
    (∀ s t : State, step s = .next t → t.params = s.params)

/-- R34: the snapshots are the 17 register pairs and the memory words in order, and taking one changes nothing. -/
def Obligations.SnapshotsShowRegistersAndMemory : Prop :=
  ∀ s : State,
    (snapshotRegisters s).length = 17 ∧
    (∀ r : RegNum, (snapshotRegisters s)[r.val]? = some ('R' :: regDigits r, readReg s r)) ∧
    (snapshotRegisters s)[16]? = some ("cpsr".toList, s.cpsr) ∧
    (snapshotMemory s).length = s.params.memWords ∧
    (∀ k, k < s.params.memWords → (snapshotMemory s)[k]? = some (readWord s.mem (s.params.physMemBase + 4 * k))) ∧
    (∀ fuel, runCommand fuel .snapshot s = some s)

/-- STEP of the program already loaded continues it, STEP of another loads that one at index 0, and after any STEP the
program is the loaded one (70_reset_and_hazards.md section 2, D22, D32). -/
def Obligations.StepCommandKeepsTheCursor : Prop :=
  ∀ (p : Program) (s : State),
    (s.lp = some p → cmdStep p s = step s) ∧
    (s.lp ≠ some p → cmdStep p s = step { s with lp := some p, pc := 0, st := .ready }) ∧
    (∀ t, cmdStep p s = .next t → t.lp = some p ∧ cmdStep p t = step t)

/-- RUN returns Done exactly when some number of Continued steps after the load is followed by a Halted one, and the cursor
is then at the program's end (70_reset_and_hazards.md section 2; the budget is log 10). -/
def Obligations.RunDoneIsContinuedStepsThenHalted : Prop :=
  ∀ (fuel : Nat) (p : Program) (s t : State),
    (RunsDone fuel p s t ↔ ∃ n u, n < fuel ∧ continueFor n (cmdLoad p s) = some u ∧ step u = .next t ∧
      stepResult t = .halted) ∧
    (RunsDone fuel p s t → p.operations.length ≤ t.pc ∧ t.lp = some p)

/-! ### The invariant -/

/-- The state after reset has the invariant, and so has every state that CREATE makes. -/
def Obligations.ResetStateHasTheInvariant : Prop :=
  State.reset.Inv ∧ ∀ p s, cmdCreate p = some s → s.Inv

/-- Every step keeps the invariant: parameters valid, memory canonical and inside the window, CPSR bits 27:0 zero, the
program as built, the cursor never past its end, the status in agreement (10_state.md sections 2, 3 and 6; 20_memory.md
section 4). -/
def Obligations.EveryStepKeepsTheInvariant : Prop :=
  ∀ s t : State, s.Inv → step s = .next t → t.Inv

/-- Every command of the host keeps the invariant, when the program it sends is one the Program Builder made
(70_reset_and_hazards.md section 3). -/
def Obligations.EveryCommandKeepsTheInvariant : Prop :=
  ∀ (fuel : Nat) (s t : State), s.Inv →
    (runCommand fuel .reset s = some t → t.Inv) ∧ (runCommand fuel .snapshot s = some t → t.Inv) ∧
    (∀ (ex : ExtraConds) (text : Text) (p : Program), parseProgram ex text = .ok p →
      (runCommand fuel (.load p) s = some t → t.Inv) ∧ (runCommand fuel (.run p) s = some t → t.Inv) ∧
      (runCommand fuel (.step p) s = some t → t.Inv))

/-- A step of a program from the Program Builder never stops the model (60_exceptions.md sections 1 and 3; a runtime error
as a next state is log 4). -/
def Obligations.StepsOfBuiltProgramsNeverStop : Prop :=
  ∀ (ex : ExtraConds) (text : Text) (p : Program) (s : State), parseProgram ex text = .ok p → s.lp = some p →
    ∃ t, step s = .next t

/-! ### One step -/

/-- When the operation at the cursor decodes to an instruction, the step is that instruction's execution and nothing else
(40_engine_and_operands.md section 1). -/
def Obligations.StepRunsTheDecodedInstruction : Prop :=
  ∀ (s : State) (p : Program) (o : Operation) (i : Instr), s.lp = some p → p.operations[s.pc]? = some o →
    decodeBundle o.bundle = .ok i → step s = exec i s

/-- A step with the cursor at or past the program's end changes nothing and returns Halted, which ST records
(40_engine_and_operands.md section 1; ST is the spec's choice D23). -/
def Obligations.TerminalStepOnlyHalts : Prop :=
  ∀ (s : State) (p : Program), s.lp = some p → p.operations.length ≤ s.pc →
    step s = .next { s with st := .halted }

/-- A bundle with a reserved header raises ReservedOperation with that header, whatever its condition, and changes nothing
else (60_exceptions.md section 1, D29). -/
def Obligations.ReservedBundleIsRefusedAtFetch : Prop :=
  ∀ (s : State) (p : Program) (o : Operation), s.lp = some p → p.operations[s.pc]? = some o →
    decodeHeader o.bundle.header = none →
    step s = .next { s with st := .faulted ⟨.reservedOperation o.bundle.header, s.pc⟩ }

/-- An operation whose condition is false only moves the cursor on, whatever its operands, target or label
(40_engine_and_operands.md section 1). -/
def Obligations.SkippedOperationOnlyAdvances : Prop :=
  ∀ (i : Instr) (s : State), suffixHolds i.suffix s.cpsr = false →
    exec i s = .next { s with pc := s.pc + 1, st := if progLength s ≤ s.pc + 1 then .halted else .ready }

/-- A step that raises leaves registers, CPSR, MEM, pc and program as they were, its record names pc, and a further step
raises the same error again (40_engine_and_operands.md section 1, 60_exceptions.md sections 1 and 3, the last derived
there; ST as a next state is log 4). -/
def Obligations.ErrorsChangeOnlyTheStatusAndRepeat : Prop :=
  ∀ (s t : State) (e : ErrorRecord), s.lp ≠ none → step s = .next t → t.st = .faulted e →
    t = { s with st := .faulted e } ∧ e.pc = s.pc ∧ step t = .next t

/-- With a program loaded, the status field does not change what a step does (10_state.md section 3, D23). -/
def Obligations.StatusDoesNotSteerTheEngine : Prop :=
  ∀ (s : State) (x : Status), s.lp ≠ none → step { s with st := x } = step s

/-- With MEM_INDIRECT_LOADS false, no step lets data memory influence anything but data memory (45_load_store.md, D17). -/
def Obligations.MemoryIsUnreadableWithoutIndirectLoads : Prop :=
  ∀ (s t : State) (m : Memory), s.params.memIndirectLoads = false → step s = .next t →
    ∃ m', step (setMem s m) = .next (setMem t m')

/-! ### Operands and the shifter -/

/-- R131, R133, R135, R136: a register operand is the register's value for all 16 registers, R15 among them and whatever
the cursor; an immediate is its value; a shift operand resolves its value, then its amount (0 where RRX has none), by the
same resolver, and applies the shift function with the C flag; a Bad operand raises DecodeError with its token, at
resolution and not at decode (a line with one decodes). -/
def Obligations.OperandsResolve : Prop :=
  ∀ (s : State),
    (∀ r, resolve s (.simple (.reg r)) = .ok (readReg s r)) ∧
    (∀ k r, resolve (jumpTo s k) (.simple (.reg r)) = resolve s (.simple (.reg r))) ∧
    (∀ v, resolve s (.simple (.imm v)) = .ok v) ∧
    (∀ t, resolve s (.simple (.bad t)) = .error (.decodeError t)) ∧
    (∀ ex, parseLine ex "MOV R0, R16".toList =
      .ok (none, .mov ⟨none, false⟩ (.reg 0) (.simple (.bad "R16".toList)))) ∧
    (∀ (k : ShiftKind) (b : Simple) (vb : Word), resolve s (.simple b) = .ok vb →
      resolve s (.shift k b none) = .ok (shiftFn s.params.shiftAmountRule k vb 0 (flagC s.cpsr)) ∧
      (∀ (a : Simple) (va : Word), resolve s (.simple a) = .ok va →
        resolve s (.shift k b (some a)) = .ok (shiftFn s.params.shiftAmountRule k vb va (flagC s.cpsr))))

/-- An operand fails to resolve exactly when it holds a Bad token, and the error carries the first one, a shift's value
before its amount (40_engine_and_operands.md section 2, order D25). -/
def Obligations.ResolutionFailsExactlyOnBadTokens : Prop :=
  ∀ (s : State) (o : Operand),
    (∀ tok, Operand.firstBad o = some tok → resolve s o = .error (.decodeError tok)) ∧
    (Operand.firstBad o = none → ∃ v, resolve s o = .ok v)

/-- The bits of the four shifts by `n`, zeros or copies of bit 31 shifted in, and of the rotation
(40_engine_and_operands.md section 3, from general knowledge there). -/
def Obligations.ShifterBits : Prop :=
  ∀ (v : Word) (n i : Nat), i < 32 →
    (lslFn v n).getLsbD i = (decide (n ≤ i) && v.getLsbD (i - n)) ∧
    (lsrFn v n).getLsbD i = (decide (i + n < 32) && v.getLsbD (i + n)) ∧
    (asrFn v n).getLsbD i = v.getLsbD (min (i + n) 31) ∧
    (rorFn v n).getLsbD i = v.getLsbD ((i + n) % 32) ∧
    (∀ c, (rrxFn v c).getLsbD i = if i = 31 then c else v.getLsbD (i + 1))

/-- The two amount rules give the same result for every amount below 32, and for ROR and RRX for every amount
(40_engine_and_operands.md section 3, D12). -/
def Obligations.AmountRulesAgree : Prop :=
  ∀ (k : ShiftKind) (v amt : Word) (c : Bool), (amt.toNat < 32 ∨ k = .ror ∨ k = .rrx) →
    shiftFn .armReg k v amt c = shiftFn .mask5 k v amt c

/-- A shift mnemonic does what MOV of the shift operand does, flags and errors among it (43_shifts.md, derived there). -/
def Obligations.ShiftMnemonicEqualsMovOfShiftOperand : Prop :=
  ∀ (f : Suffix) (rd : Target) (x y : Simple) (s : State),
    exec (.lsl f rd (.simple x) (.simple y)) s = exec (.mov f rd (.shift .lsl x (some y))) s ∧
    exec (.lsr f rd (.simple x) (.simple y)) s = exec (.mov f rd (.shift .lsr x (some y))) s ∧
    exec (.asr f rd (.simple x) (.simple y)) s = exec (.mov f rd (.shift .asr x (some y))) s ∧
    exec (.ror f rd (.simple x) (.simple y)) s = exec (.mov f rd (.shift .ror x (some y))) s ∧
    exec (.rrx f rd (.simple x)) s = exec (.mov f rd (.shift .rrx x none)) s

/-! ### Arithmetic and moves -/

/-- R170, ADD: op code (its numbering is the spec's choice D2) and mode; the sum modulo 2^32, the flags with S; DecodeError for a Bad source,
StateModificationException for a Bad target, and otherwise it completes. -/
def Obligations.AddRule : Prop :=
  ∀ (f : Suffix) (x y : Operand) (s : State),
    (∀ rd, headerOp (encode (.add f rd x y)).header = 4 ∧ (Instr.add f rd x y).mnemonic.mode = .add) ∧
    (suffixHolds f s.cpsr = true →
      (∀ rd tok, Operand.firstBad x = some tok → Traps (.add f rd x y) s (.decodeError tok)) ∧
      (∀ rd tok, Operand.firstBad x = none → Operand.firstBad y = some tok →
        Traps (.add f rd x y) s (.decodeError tok)) ∧
      (∀ a b, resolve s x = .ok a → resolve s y = .ok b →
        (∀ tok, Traps (.add f (.bad tok) x y) s (.stateModification tok)) ∧
        (∀ d, ∃ t, exec (.add f (.reg d) x y) s = .next t ∧ WroteReg s t d (a + b) ∧
          FlagsIf f.s s.cpsr t.cpsr ((a + b).getLsbD 31) (decide (a + b = 0)) (decide (2 ^ 32 ≤ a.toNat + b.toNat))
            (overflows (a.toInt + b.toInt)))))

/-- ADC completes: the sum with the C flag of the start of the step (42_arithmetic_move.md section 1, from general
knowledge there). -/
def Obligations.AdcCompletes : Prop :=
  ∀ (f : Suffix) (d : RegNum) (x y : Operand) (s : State) (a b : Word), suffixHolds f s.cpsr = true →
    resolve s x = .ok a → resolve s y = .ok b →
    ∃ t, exec (.adc f (.reg d) x y) s = .next t ∧
      WroteReg s t d (a + b + BitVec.ofNat 32 (flagC s.cpsr).toNat) ∧
      FlagsIf f.s s.cpsr t.cpsr ((a + b + BitVec.ofNat 32 (flagC s.cpsr).toNat).getLsbD 31)
        (decide (a + b + BitVec.ofNat 32 (flagC s.cpsr).toNat = 0))
        (decide (2 ^ 32 ≤ a.toNat + b.toNat + (flagC s.cpsr).toNat))
        (overflows (a.toInt + b.toInt + ((flagC s.cpsr).toNat : Int)))

/-- R172, SUB: op code (D2) and mode; the difference modulo 2^32, the flags with S, C where no borrow occurs; its errors as
ADD's. -/
def Obligations.SubRule : Prop :=
  ∀ (f : Suffix) (x y : Operand) (s : State),
    (∀ rd, headerOp (encode (.sub f rd x y)).header = 2 ∧ (Instr.sub f rd x y).mnemonic.mode = .sub) ∧
    (suffixHolds f s.cpsr = true →
      (∀ rd tok, Operand.firstBad x = some tok → Traps (.sub f rd x y) s (.decodeError tok)) ∧
      (∀ rd tok, Operand.firstBad x = none → Operand.firstBad y = some tok →
        Traps (.sub f rd x y) s (.decodeError tok)) ∧
      (∀ a b, resolve s x = .ok a → resolve s y = .ok b →
        (∀ tok, Traps (.sub f (.bad tok) x y) s (.stateModification tok)) ∧
        (∀ d, ∃ t, exec (.sub f (.reg d) x y) s = .next t ∧ WroteReg s t d (a - b) ∧
          FlagsIf f.s s.cpsr t.cpsr ((a - b).getLsbD 31) (decide (a = b)) (decide (b.toNat ≤ a.toNat))
            (overflows (a.toInt - b.toInt)))))

/-- SBC completes: the difference less NOT C (42_arithmetic_move.md section 1, from general knowledge there). -/
def Obligations.SbcCompletes : Prop :=
  ∀ (f : Suffix) (d : RegNum) (x y : Operand) (s : State) (a b : Word), suffixHolds f s.cpsr = true →
    resolve s x = .ok a → resolve s y = .ok b →
    ∃ t, exec (.sbc f (.reg d) x y) s = .next t ∧
      WroteReg s t d (a - b - BitVec.ofNat 32 (!flagC s.cpsr).toNat) ∧
      FlagsIf f.s s.cpsr t.cpsr ((a - b - BitVec.ofNat 32 (!flagC s.cpsr).toNat).getLsbD 31)
        (decide (a - b - BitVec.ofNat 32 (!flagC s.cpsr).toNat = 0))
        (decide (b.toNat + (!flagC s.cpsr).toNat ≤ a.toNat))
        (overflows (a.toInt - b.toInt - ((!flagC s.cpsr).toNat : Int)))

/-- RSB completes with Op2 - Op1, RSC with Op2 - Op1 less NOT C (42_arithmetic_move.md section 1, from general knowledge
there). -/
def Obligations.RsbAndRscComplete : Prop :=
  ∀ (f : Suffix) (d : RegNum) (x y : Operand) (s : State) (a b : Word), suffixHolds f s.cpsr = true →
    resolve s x = .ok a → resolve s y = .ok b →
    (∃ t, exec (.rsb f (.reg d) x y) s = .next t ∧ WroteReg s t d (b - a) ∧
      FlagsIf f.s s.cpsr t.cpsr ((b - a).getLsbD 31) (decide (a = b)) (decide (a.toNat ≤ b.toNat))
        (overflows (b.toInt - a.toInt))) ∧
    (∃ t, exec (.rsc f (.reg d) x y) s = .next t ∧
      WroteReg s t d (b - a - BitVec.ofNat 32 (!flagC s.cpsr).toNat) ∧
      FlagsIf f.s s.cpsr t.cpsr ((b - a - BitVec.ofNat 32 (!flagC s.cpsr).toNat).getLsbD 31)
        (decide (b - a - BitVec.ofNat 32 (!flagC s.cpsr).toNat = 0))
        (decide (a.toNat + (!flagC s.cpsr).toNat ≤ b.toNat))
        (overflows (b.toInt - a.toInt - ((!flagC s.cpsr).toNat : Int))))

/-- R176, MOV: op code (D2) and mode; the source's value, with S the flags of mode SHIFT (C and V 0); its errors; a shift
form is one shift operand. The cursor moves on by one for every target, R15 among them. -/
def Obligations.MovRule : Prop :=
  ∀ (f : Suffix) (x : Operand) (s : State),
    (∀ rd, headerOp (encode (.mov f rd x)).header = 13 ∧ (Instr.mov f rd x).mnemonic.mode = .shift) ∧
    parseLine s.params.extraConds "MOV R0, R1, LSL #2".toList =
      .ok (none, .mov ⟨none, false⟩ (.reg 0) (.shift .lsl (.reg 1) (some (.imm 2)))) ∧
    (suffixHolds f s.cpsr = true →
      (∀ rd tok, Operand.firstBad x = some tok → Traps (.mov f rd x) s (.decodeError tok)) ∧
      (∀ a, resolve s x = .ok a →
        (∀ tok, Traps (.mov f (.bad tok) x) s (.stateModification tok)) ∧
        (∀ d, ∃ t, exec (.mov f (.reg d) x) s = .next t ∧ WroteReg s t d a ∧
          FlagsIf f.s s.cpsr t.cpsr (a.getLsbD 31) (decide (a = 0)) false false)) ∧
      resolve s (.simple .cpsr) = .ok s.cpsr ∧ (∀ r, resolve s (.simple (.memInd r)) = .ok (readReg s r)))

/-- MVN completes with the complement (42_arithmetic_move.md section 2, from general knowledge there). -/
def Obligations.MvnCompletes : Prop :=
  ∀ (f : Suffix) (d : RegNum) (x : Operand) (s : State) (a : Word), suffixHolds f s.cpsr = true →
    resolve s x = .ok a →
    ∃ t, exec (.mvn f (.reg d) x) s = .next t ∧ WroteReg s t d (BitVec.ofInt 32 (-1 - a.toInt)) ∧
      FlagsIf f.s s.cpsr t.cpsr (!a.getLsbD 31) (decide (a = 0xFFFFFFFF)) false false

/-- ADDS of the low words and ADC of the high words add 64-bit numbers (42_arithmetic_move.md section 1). -/
def Obligations.AddsThenAdcAddsSixtyFourBits : Prop :=
  ∀ (s : State) (r0 r1 r2 r3 d0 d1 : RegNum), d0 ≠ r1 → d0 ≠ r3 → d0 ≠ d1 →
    ∃ u t, exec (.add ⟨none, true⟩ (.reg d0) (.simple (.reg r0)) (.simple (.reg r2))) s = .next u ∧
      exec (.adc ⟨none, false⟩ (.reg d1) (.simple (.reg r1)) (.simple (.reg r3))) u = .next t ∧
      (readReg t d1 ++ readReg t d0 : BitVec 64) =
        (readReg s r1 ++ readReg s r0 : BitVec 64) + (readReg s r3 ++ readReg s r2 : BitVec 64)

/-! ### Shifts as mnemonics -/

/-- LSL completes with the value times 2^n modulo 2^32, LSR with the unsigned value divided by 2^n; C and V 0 with S
(43_shifts.md; the formulas are from general knowledge there). The amount n is the low 8 bits of the second source under
ARM_REG and the low 5 under MASK5 (40_engine_and_operands.md section 3, the parameter D12). -/
def Obligations.LslAndLsrComplete : Prop :=
  ∀ (f : Suffix) (d : RegNum) (x y : Operand) (s : State) (a b : Word) (n : Nat), suffixHolds f s.cpsr = true →
    resolve s x = .ok a → resolve s y = .ok b →
    n = (if s.params.shiftAmountRule = .armReg then b.toNat % 256 else b.toNat % 32) →
    (∃ t v, exec (.lsl f (.reg d) x y) s = .next t ∧
      v = BitVec.ofNat 32 (a.toNat * 2 ^ n) ∧ WroteReg s t d v ∧
      FlagsIf f.s s.cpsr t.cpsr (v.getLsbD 31) (decide (v = 0)) false false) ∧
    (∃ t v, exec (.lsr f (.reg d) x y) s = .next t ∧
      v = BitVec.ofNat 32 (a.toNat / 2 ^ n) ∧ WroteReg s t d v ∧
      FlagsIf f.s s.cpsr t.cpsr (v.getLsbD 31) (decide (v = 0)) false false)

/-- ASR completes with the signed value divided by 2^n and rounded down, ROR with the value rotated right by the amount
modulo 32 under either amount rule; C and V 0 with S (43_shifts.md, the amount n as for LSL). -/
def Obligations.AsrAndRorComplete : Prop :=
  ∀ (f : Suffix) (d : RegNum) (x y : Operand) (s : State) (a b : Word) (n : Nat), suffixHolds f s.cpsr = true →
    resolve s x = .ok a → resolve s y = .ok b →
    n = (if s.params.shiftAmountRule = .armReg then b.toNat % 256 else b.toNat % 32) →
    (∃ t v, exec (.asr f (.reg d) x y) s = .next t ∧
      v = BitVec.ofInt 32 (a.toInt / 2 ^ n) ∧ WroteReg s t d v ∧
      FlagsIf f.s s.cpsr t.cpsr (v.getLsbD 31) (decide (v = 0)) false false) ∧
    (∃ t v, exec (.ror f (.reg d) x y) s = .next t ∧ v = a.rotateRight (b.toNat % 32) ∧ WroteReg s t d v ∧
      FlagsIf f.s s.cpsr t.cpsr (v.getLsbD 31) (decide (v = 0)) false false)

/-- RRX completes: C becomes bit 31 and bit 0 is dropped; with S, C is then 0 (43_shifts.md, from general knowledge
there). -/
def Obligations.RrxCompletes : Prop :=
  ∀ (f : Suffix) (d : RegNum) (x : Operand) (s : State) (a : Word), suffixHolds f s.cpsr = true →
    resolve s x = .ok a →
    ∃ t v, exec (.rrx f (.reg d) x) s = .next t ∧
      v = BitVec.ofNat 32 (a.toNat / 2 + 2 ^ 31 * (flagC s.cpsr).toNat) ∧ WroteReg s t d v ∧
      FlagsIf f.s s.cpsr t.cpsr (flagC s.cpsr) (decide (v = 0)) false false

/-! ### Compares -/

/-- R220, CMP: op code (D2) and mode; no register or memory written, the flags of a - b always set; DecodeError for a Bad operand.
-/
def Obligations.CmpRule : Prop :=
  ∀ (f : Suffix) (x y : Operand) (s : State),
    headerOp (encode (.cmp f x y)).header = 10 ∧ (Instr.cmp f x y).mnemonic.mode = .sub ∧
    (suffixHolds f s.cpsr = true →
      (∀ tok, Operand.firstBad x = some tok → Traps (.cmp f x y) s (.decodeError tok)) ∧
      (∀ tok, Operand.firstBad x = none → Operand.firstBad y = some tok → Traps (.cmp f x y) s (.decodeError tok)) ∧
      (∀ a b, resolve s x = .ok a → resolve s y = .ok b →
        ∃ t, exec (.cmp f x y) s = .next t ∧ WroteNone s t ∧
          FlagsSet s.cpsr t.cpsr ((a - b).getLsbD 31) (decide (a = b)) (decide (b.toNat ≤ a.toNat))
            (overflows (a.toInt - b.toInt))))

/-- CMN completes with the flags of a + b, TST and TEQ with N and Z of the AND and of the exclusive OR, C and V 0
(44_compare.md, from general knowledge there). Z of TEQ is equality. -/
def Obligations.CmnTstAndTeqComplete : Prop :=
  ∀ (f : Suffix) (x y : Operand) (s : State) (a b : Word), suffixHolds f s.cpsr = true →
    resolve s x = .ok a → resolve s y = .ok b →
    (∃ t, exec (.cmn f x y) s = .next t ∧ WroteNone s t ∧
      FlagsSet s.cpsr t.cpsr ((a + b).getLsbD 31) (decide (a + b = 0)) (decide (2 ^ 32 ≤ a.toNat + b.toNat))
        (overflows (a.toInt + b.toInt))) ∧
    (∃ t, exec (.tst f x y) s = .next t ∧ WroteNone s t ∧
      FlagsSet s.cpsr t.cpsr (a.getLsbD 31 && b.getLsbD 31)
        (decide (∀ i : Fin 32, ¬(a.getLsbD i = true ∧ b.getLsbD i = true))) false false) ∧
    (∃ t, exec (.teq f x y) s = .next t ∧ WroteNone s t ∧
      FlagsSet s.cpsr t.cpsr (a.getLsbD 31 != b.getLsbD 31) (decide (a = b)) false false)

/-- An operation with no condition suffix always executes, one with a suffix as its condition holds, and each of the 16
conditions holds by the flags of the CPSR word: bit 31 N, 30 Z, 29 C, 28 V (places D5). After CMP of a and b, EQ and NE are
equality, CS, CC, HI, LS the unsigned order, GE, LT, GT, LE the signed order (41_conditions_and_flags.md section 1,
44_compare.md). EQ, GE, LE and AL are the source's; every other row is from general knowledge there, and NV (never) is the
spec's own choice D3 (log 9). -/
def Obligations.ConditionsAfterCompare : Prop :=
  (∀ (b : Bool) (w : Word), suffixHolds ⟨none, b⟩ w = true) ∧
  (∀ (c : Cond) (b : Bool) (w : Word), suffixHolds ⟨some c, b⟩ w = condHolds c w) ∧
  (∀ w : Word,
    (condHolds .eq w = true ↔ w.getLsbD 30 = true) ∧ (condHolds .ne w = true ↔ w.getLsbD 30 = false) ∧
    (condHolds .cs w = true ↔ w.getLsbD 29 = true) ∧ (condHolds .cc w = true ↔ w.getLsbD 29 = false) ∧
    (condHolds .mi w = true ↔ w.getLsbD 31 = true) ∧ (condHolds .pl w = true ↔ w.getLsbD 31 = false) ∧
    (condHolds .vs w = true ↔ w.getLsbD 28 = true) ∧ (condHolds .vc w = true ↔ w.getLsbD 28 = false) ∧
    (condHolds .hi w = true ↔ w.getLsbD 29 = true ∧ w.getLsbD 30 = false) ∧
    (condHolds .ls w = true ↔ w.getLsbD 29 = false ∨ w.getLsbD 30 = true) ∧
    (condHolds .ge w = true ↔ w.getLsbD 31 = w.getLsbD 28) ∧ (condHolds .lt w = true ↔ w.getLsbD 31 ≠ w.getLsbD 28) ∧
    (condHolds .gt w = true ↔ w.getLsbD 30 = false ∧ w.getLsbD 31 = w.getLsbD 28) ∧
    (condHolds .le w = true ↔ w.getLsbD 30 = true ∨ w.getLsbD 31 ≠ w.getLsbD 28) ∧
    condHolds .al w = true ∧ condHolds .nv w = false) ∧
  (∀ (f : Suffix) (x y : Operand) (s : State) (a b : Word), suffixHolds f s.cpsr = true →
    resolve s x = .ok a → resolve s y = .ok b →
    ∃ t, exec (.cmp f x y) s = .next t ∧
      condHolds .eq t.cpsr = decide (a = b) ∧ condHolds .ne t.cpsr = decide (a ≠ b) ∧
      condHolds .cs t.cpsr = decide (b.toNat ≤ a.toNat) ∧ condHolds .cc t.cpsr = decide (a.toNat < b.toNat) ∧
      condHolds .hi t.cpsr = decide (b.toNat < a.toNat) ∧ condHolds .ls t.cpsr = decide (a.toNat ≤ b.toNat) ∧
      condHolds .ge t.cpsr = decide (b.toInt ≤ a.toInt) ∧ condHolds .lt t.cpsr = decide (a.toInt < b.toInt) ∧
      condHolds .gt t.cpsr = decide (b.toInt < a.toInt) ∧ condHolds .le t.cpsr = decide (a.toInt ≤ b.toInt))

/-! ### Memory -/

/-- R54, under the constraints of R7 (bounds D18): the range check comes after that of alignment; an aligned address outside the window is refused, and the accepted
addresses are exactly the base plus 4 j for j below MEM_WORDS, each with word index j. -/
def Obligations.AcceptedAddressesAreTheWindowWords : Prop :=
  ∀ (p : Params) (a : Nat), p.valid = true →
    (a % 4 ≠ 0 → wordIndex p a = .error (.misaligned a)) ∧
    (a % 4 = 0 → (a < p.physMemBase ∨ p.physMemBase + 4 * p.memWords ≤ a) → wordIndex p a = .error (.outOfWindow a)) ∧
    (∀ k, wordIndex p a = .ok k ↔ k < p.memWords ∧ a = p.physMemBase + 4 * k)

/-- A MemRead after a MemWrite gives the word written at its address and the old word at every other accepted address; a
write keeps the memory canonical (20_memory.md sections 2, 3 and 5; the cells' byte order is log 3). -/
def Obligations.MemReadAfterMemWrite : Prop :=
  ∀ (s t : State) (a : Nat) (v : Word), memWrite s a v = .ok t →
    memRead t a = .ok v ∧ (∀ b, b ≠ a → b % 4 = 0 → memRead t b = memRead s b) ∧
      (s.mem.wf = true → t.mem.wf = true)

/-- LDR that loads nothing completes with the resolved source: MEM_INDIRECT_LOADS is false or the source is not exactly
[Rn]. LDR that loads completes with the word at the address in Rn (45_load_store.md, the parameter D17). -/
def Obligations.LdrCompletes : Prop :=
  ∀ (f : Suffix) (d : RegNum) (s : State), suffixHolds f s.cpsr = true →
    (∀ (x : Operand) (a : Word), (s.params.memIndirectLoads = false ∨ ∀ n, x ≠ .simple (.memInd n)) →
      resolve s x = .ok a →
      ∃ t, exec (.ldr f (.reg d) x) s = .next t ∧ WroteReg s t d a ∧
        FlagsIf f.s s.cpsr t.cpsr (a.getLsbD 31) (decide (a = 0)) false false) ∧
    (∀ (n : RegNum) (k : Nat), s.params.memIndirectLoads = true → k < s.params.memWords →
      s.params.physMemBase % 4 = 0 → (readReg s n).toNat = s.params.physMemBase + 4 * k →
      ∃ t, exec (.ldr f (.reg d) (.simple (.memInd n))) s = .next t ∧
        WroteReg s t d (readWord s.mem (s.params.physMemBase + 4 * k)) ∧
        FlagsIf f.s s.cpsr t.cpsr ((readWord s.mem (s.params.physMemBase + 4 * k)).getLsbD 31)
          (decide (readWord s.mem (s.params.physMemBase + 4 * k) = 0)) false false)

/-- STR completes: the word at the resolved address becomes the value, every byte outside its four is as it was, and
registers and CPSR are too (45_load_store.md, 20_memory.md section 2). -/
def Obligations.StrCompletes : Prop :=
  ∀ (f : Suffix) (x y : Operand) (s : State) (v a : Word) (k : Nat), suffixHolds f s.cpsr = true →
    resolve s x = .ok v → resolve s y = .ok a → s.params.physMemBase % 4 = 0 → k < s.params.memWords →
    a.toNat = s.params.physMemBase + 4 * k →
    ∃ t, exec (.str f x y) s = .next t ∧ NextOp s t ∧ t.regs = s.regs ∧ t.cpsr = s.cpsr ∧
      readWord t.mem (s.params.physMemBase + 4 * k) = v ∧
      (∀ b, b < a.toNat ∨ a.toNat + 4 ≤ b → readByte t.mem b = readByte s.mem b)

/-- With MEM_INDIRECT_LOADS true, STR Rv, [Rn] then LDR Rd, [Rn] gives Rd the value of Rv (45_load_store.md, D17). -/
def Obligations.StoreThenLoadRoundTrips : Prop :=
  ∀ (s : State) (rv rn d : RegNum) (k : Nat), s.params.memIndirectLoads = true → s.params.physMemBase % 4 = 0 →
    k < s.params.memWords → (readReg s rn).toNat = s.params.physMemBase + 4 * k →
    ∃ u t, exec (.str ⟨none, false⟩ (.simple (.reg rv)) (.simple (.memInd rn))) s = .next u ∧
      exec (.ldr ⟨none, false⟩ (.reg d) (.simple (.memInd rn))) u = .next t ∧ readReg t d = readReg s rv

/-- R253: STR, and LDR of [Rn] with MEM_INDIRECT_LOADS true, raise AddressingError(Misaligned) carrying the address where
it is no multiple of 4, and nothing else raises it. -/
def Obligations.MisalignedAccessesRaise : Prop :=
  (∀ (f : Suffix) (x y : Operand) (s : State) (v a : Word), suffixHolds f s.cpsr = true → resolve s x = .ok v →
    resolve s y = .ok a → a.toNat % 4 ≠ 0 → Traps (.str f x y) s (.misaligned a.toNat)) ∧
  (∀ (f : Suffix) (rd : Target) (n : RegNum) (s : State), suffixHolds f s.cpsr = true →
    s.params.memIndirectLoads = true → (readReg s n).toNat % 4 ≠ 0 →
    Traps (.ldr f rd (.simple (.memInd n))) s (.misaligned (readReg s n).toNat)) ∧
  (∀ (i : Instr) (s t : State) (a k : Nat), exec i s = .next t → t.st = .faulted ⟨.misaligned a, k⟩ →
    a % 4 ≠ 0 ∧ k = s.pc ∧
    ((∃ f x y v w, i = .str f x y ∧ resolve s x = .ok v ∧ resolve s y = .ok w ∧ a = w.toNat) ∨
      (s.params.memIndirectLoads = true ∧ ∃ f rd n, i = .ldr f rd (.simple (.memInd n)) ∧ a = (readReg s n).toNat)))

/-- R254: the same instructions raise AddressingError(OutOfWindow) carrying the address where it is aligned and outside
the window. Nothing else raises it: where it is raised, the instruction is one of these, both sources of a STR resolve, and
the address carried is the resolved one, aligned and outside the window. -/
def Obligations.OutOfWindowAccessesRaise : Prop :=
  (∀ (f : Suffix) (x y : Operand) (s : State) (v a : Word), suffixHolds f s.cpsr = true → resolve s x = .ok v →
    resolve s y = .ok a → a.toNat % 4 = 0 →
    (a.toNat < s.params.physMemBase ∨ s.params.physMemBase + 4 * s.params.memWords ≤ a.toNat) →
    Traps (.str f x y) s (.outOfWindow a.toNat)) ∧
  (∀ (f : Suffix) (rd : Target) (n : RegNum) (s : State), suffixHolds f s.cpsr = true →
    s.params.memIndirectLoads = true → (readReg s n).toNat % 4 = 0 →
    ((readReg s n).toNat < s.params.physMemBase ∨
      s.params.physMemBase + 4 * s.params.memWords ≤ (readReg s n).toNat) →
    Traps (.ldr f rd (.simple (.memInd n))) s (.outOfWindow (readReg s n).toNat)) ∧
  (∀ (i : Instr) (s t : State) (a k : Nat), exec i s = .next t → t.st = .faulted ⟨.outOfWindow a, k⟩ →
    a % 4 = 0 ∧ (a < s.params.physMemBase ∨ s.params.physMemBase + 4 * s.params.memWords ≤ a) ∧ k = s.pc ∧
    ((∃ f x y v w, i = .str f x y ∧ resolve s x = .ok v ∧ resolve s y = .ok w ∧ a = w.toNat) ∨
      (s.params.memIndirectLoads = true ∧ ∃ f rd n, i = .ldr f rd (.simple (.memInd n)) ∧ a = (readReg s n).toNat)))

/-! ### Branch -/

/-- A taken B goes to the one operation that carries its label, and a label carried twice or more raises
AmbiguousLabelError with its indices (46_branch.md; the latter is the spec's choice D15). In a program from the Program
Builder the target is an operation of it. -/
def Obligations.BranchGoesToItsOnlyLabel : Prop :=
  ∀ (f : Suffix) (l : Text) (s : State), suffixHolds f s.cpsr = true →
    (∀ k, labelIndices (progLabels s) l = [k] →
      exec (.b f l) s = .next { s with pc := k, st := if progLength s ≤ k then .halted else .ready }) ∧
    (∀ k k' ks, labelIndices (progLabels s) l = k :: k' :: ks →
      Traps (.b f l) s (.ambiguousLabel l (k :: k' :: ks))) ∧
    (∀ p k, s.lp = some p → Program.wf p = true → labelIndices (progLabels s) l = [k] →
      k < p.operations.length ∧ ∃ t, exec (.b f l) s = .next t ∧ t.pc = k ∧ stepResult t = .continued)

/-- R256: a taken B whose label is not in the label table raises UnresolvedLabelError carrying the name, at that moment
and not at build time (a text with such a B builds). -/
def Obligations.UnresolvedLabelRaisesWhenTaken : Prop :=
  (∀ (f : Suffix) (l : Text) (s : State), suffixHolds f s.cpsr = true → (∀ ks, (l, ks) ∉ progLabels s) →
    Traps (.b f l) s (.unresolvedLabel l)) ∧
  (∀ ex : ExtraConds, ∃ p, parseProgram ex "B nowhere".toList = .ok p ∧ p.labels = [])

/-! ### Frames and errors by shape -/

/-- Register-update instructions (ADD, ADC, SUB, SBC, RSB, RSC, MOV, MVN, LSL, LSR, ASR, ROR, RRX, LDR), however they end:
no register but the target, no byte of memory, CPSR bits 27:0 never, and none of CPSR without S (40_engine_and_operands.md
section 1, 41_conditions_and_flags.md section 2). -/
def Obligations.RegisterUpdateFrame : Prop :=
  ∀ (i : Instr) (s t : State), i.mnemonic.shape = .registerUpdate → exec i s = .next t →
    (∀ r, i.target ≠ some (.reg r) → readReg t r = readReg s r) ∧ (∀ a, readByte t.mem a = readByte s.mem a) ∧
    t.mem = s.mem ∧ (i.suffix.s = false → t.cpsr = s.cpsr) ∧
    t.cpsr.extractLsb' 0 28 = s.cpsr.extractLsb' 0 28 ∧ t.lp = s.lp ∧ t.params = s.params

/-- CMP, CMN, TST and TEQ: no register, no byte of memory, CPSR bits 27:0 never (44_compare.md). -/
def Obligations.CompareFrame : Prop :=
  ∀ (i : Instr) (s t : State), i.mnemonic.shape = .compareOnly → exec i s = .next t →
    t.regs = s.regs ∧ (∀ a, readByte t.mem a = readByte s.mem a) ∧ t.mem = s.mem ∧
    t.cpsr.extractLsb' 0 28 = s.cpsr.extractLsb' 0 28 ∧ t.lp = s.lp ∧ t.params = s.params

/-- STR: no register and no flag; where the address operand resolves, every byte outside the four from it, and where it
does not, every byte. B: nothing but cursor and status (45_load_store.md, 46_branch.md). -/
def Obligations.StoreAndBranchFrames : Prop :=
  (∀ (f : Suffix) (x y : Operand) (s t : State), exec (.str f x y) s = .next t →
    t.regs = s.regs ∧ t.cpsr = s.cpsr ∧ t.lp = s.lp ∧ t.params = s.params ∧
    (∀ a, resolve s y = .ok a → ∀ b, b < a.toNat ∨ a.toNat + 4 ≤ b → readByte t.mem b = readByte s.mem b) ∧
    (∀ e, resolve s y = .error e → ∀ b, readByte t.mem b = readByte s.mem b)) ∧
  (∀ (f : Suffix) (l : Text) (s t : State), exec (.b f l) s = .next t →
    t = { s with pc := t.pc, st := t.st } ∧ (∀ a, readByte t.mem a = readByte s.mem a))

/-- The order of error checks in an executed operation, for every instruction: a Bad first source, then a Bad second
source raise DecodeError whatever the target or address; with every source resolved, a Bad target of a Register-update raises
StateModificationException, an LDR that loads through [Rn] among them where the address in Rn is aligned and in the window
(60_exceptions.md section 2, order D25; the loading LDR is the parameter D17). -/
def Obligations.OperandErrorsComeFirst : Prop :=
  ∀ (i : Instr) (s : State), suffixHolds i.suffix s.cpsr = true →
    (∀ x rest tok, i.sources = x :: rest → Operand.firstBad x = some tok → Traps i s (.decodeError tok)) ∧
    (∀ x y tok, i.sources = [x, y] → Operand.firstBad x = none → Operand.firstBad y = some tok →
      Traps i s (.decodeError tok)) ∧
    (∀ tok, i.target = some (.bad tok) → (∀ x ∈ i.sources, Operand.firstBad x = none) →
      (∀ f rd n, s.params.memIndirectLoads = true → i = .ldr f rd (.simple (.memInd n)) →
        (readReg s n).toNat % 4 = 0 ∧ s.params.physMemBase ≤ (readReg s n).toNat ∧
          (readReg s n).toNat < s.params.physMemBase + 4 * s.params.memWords) →
      Traps i s (.stateModification tok))
end

