-- ==== Sys2Proof/Laws/Decode.lean ====
section
/-!
SUPPORT. The fields of an encoded header, and small laws of codes and spellings.
-/
namespace Sys2Proof

theorem Mnemonic.code_lt (m : Mnemonic) : m.code < 24 := by cases m <;> decide

theorem Cond.code_lt (c : Cond) : c.code < 16 := by cases c <;> decide

theorem Mnemonic.ofCode_code (m : Mnemonic) : Mnemonic.ofCode m.code = some m := by cases m <;> rfl

theorem Cond.ofCode_code (c : Cond) : Cond.ofCode c.code = c := by cases c <;> rfl

theorem Mnemonic.mem_all (m : Mnemonic) : m ∈ Mnemonic.all := by cases m <;> decide

/-- The cond field that R91 gives a suffix: 14 where there is none. -/
def Suffix.condCode (f : Suffix) : Nat := match f.cond with | none => Cond.al.code | some c => c.code

theorem Suffix.condCode_lt (f : Suffix) : f.condCode < 16 := by
  unfold Suffix.condCode; split
  · decide
  · exact Cond.code_lt _

/-- An encoded header as a number. -/
theorem encodeHeader_toNat (m : Mnemonic) (f : Suffix) :
    (encodeHeader m f).toNat =
      m.code + 32 * f.condCode + 512 * f.s.toNat + 1024 * f.cond.isSome.toNat := by
  have h1 := m.code_lt
  have h2 := f.condCode_lt
  have e : encodeHeader m f = BitVec.ofNat 16 (m.code + 32 * f.condCode + 512 * f.s.toNat +
      1024 * f.cond.isSome.toNat) := by
    cases f with
    | mk c s => cases c <;> cases s <;> rfl
  rw [e, BitVec.toNat_ofNat]
  apply Nat.mod_eq_of_lt
  cases f.s <;> cases f.cond.isSome <;> simp <;> omega

theorem headerOp_encodeHeader (m : Mnemonic) (f : Suffix) : headerOp (encodeHeader m f) = m.code := by
  have h1 := m.code_lt
  simp only [headerOp, encodeHeader_toNat]
  cases f.s <;> cases f.cond.isSome <;> simp <;> omega

theorem headerCond_encodeHeader (m : Mnemonic) (f : Suffix) : headerCond (encodeHeader m f) = f.condCode := by
  have h1 := m.code_lt
  have h2 := f.condCode_lt
  simp only [headerCond, encodeHeader_toNat]
  cases f.s <;> cases f.cond.isSome <;> simp <;> omega

theorem headerS_encodeHeader (m : Mnemonic) (f : Suffix) : headerS (encodeHeader m f) = f.s := by
  have h1 := m.code_lt
  have h2 := f.condCode_lt
  simp only [headerS, encodeHeader_toNat]
  cases f.s <;> cases f.cond.isSome <;> simp <;> omega

theorem headerCp_encodeHeader (m : Mnemonic) (f : Suffix) : headerCp (encodeHeader m f) = f.cond.isSome := by
  have h1 := m.code_lt
  have h2 := f.condCode_lt
  simp only [headerCp, encodeHeader_toNat]
  cases f.s <;> cases f.cond.isSome <;> simp <;> omega

theorem headerZero_encodeHeader (m : Mnemonic) (f : Suffix) : headerZero (encodeHeader m f) = 0 := by
  have h1 := m.code_lt
  have h2 := f.condCode_lt
  simp only [headerZero, encodeHeader_toNat]
  cases f.s <;> cases f.cond.isSome <;> simp <;> omega

end Sys2Proof
end

