-- ==== Sys2Proof/Laws/Flags.lean ====
section
/-!
SUPPORT. The flags of a CPSR word after SetFlags, and the 32-bit result of the raw arithmetic.
-/
namespace Sys2Proof.Machine

@[simp] theorem flagN_withFlags (w : Word) (n z c v : Bool) : flagN (withFlags w n z c v) = n := by
  simp only [flagN, withFlags, BitVec.getLsbD_append]
  simp

@[simp] theorem flagZ_withFlags (w : Word) (n z c v : Bool) : flagZ (withFlags w n z c v) = z := by
  simp only [flagZ, withFlags, BitVec.getLsbD_append]
  simp

@[simp] theorem flagC_withFlags (w : Word) (n z c v : Bool) : flagC (withFlags w n z c v) = c := by
  simp only [flagC, withFlags, BitVec.getLsbD_append]
  simp

@[simp] theorem flagV_withFlags (w : Word) (n z c v : Bool) : flagV (withFlags w n z c v) = v := by
  simp only [flagV, withFlags, BitVec.getLsbD_append]
  simp

/-- Bits 27:0 are as they were. -/
@[simp] theorem rest_withFlags (w : Word) (n z c v : Bool) :
    (withFlags w n z c v).extractLsb' 0 28 = w.extractLsb' 0 28 := by
  apply BitVec.eq_of_getLsbD_eq
  intro i hi
  simp only [withFlags, BitVec.getLsbD_extractLsb', BitVec.getLsbD_append, Nat.zero_add]
  have h : i < 28 ∧ i < 1 + 28 ∧ i < 1 + (1 + 28) ∧ i < 1 + (1 + (1 + 28)) := by omega
  simp [h]

@[simp] theorem flagN_setFlags (m : FlagMode) (r : Raw) (w : Word) : flagN (setFlags m r w) = r.res.getLsbD 31 :=
  flagN_withFlags ..
@[simp] theorem flagZ_setFlags (m : FlagMode) (r : Raw) (w : Word) : flagZ (setFlags m r w) = decide (r.res = 0) :=
  flagZ_withFlags ..
@[simp] theorem flagC_setFlags (m : FlagMode) (r : Raw) (w : Word) : flagC (setFlags m r w) = newC m r.u :=
  flagC_withFlags ..
@[simp] theorem flagV_setFlags (m : FlagMode) (r : Raw) (w : Word) : flagV (setFlags m r w) = newV m r.s :=
  flagV_withFlags ..
@[simp] theorem rest_setFlags (m : FlagMode) (r : Raw) (w : Word) :
    (setFlags m r w).extractLsb' 0 28 = w.extractLsb' 0 28 := rest_withFlags ..

/-- The 32-bit sum is the bit-vector sum. -/
theorem addRaw_res (x y : Word) (c : Bool) : (addRaw x y c).res = x + y + BitVec.ofNat 32 c.toNat := by
  apply BitVec.eq_of_toNat_eq
  simp only [addRaw, BitVec.toNat_ofInt, BitVec.toNat_add, BitVec.toNat_ofNat]
  have := x.isLt; have := y.isLt
  cases c <;> simp <;> omega

/-- The 32-bit difference is the bit-vector difference. -/
theorem subRaw_res (x y : Word) (c : Bool) : (subRaw x y c).res = x - y - BitVec.ofNat 32 c.toNat := by
  apply BitVec.eq_of_toNat_eq
  simp only [subRaw, BitVec.toNat_ofInt, BitVec.toNat_sub, BitVec.toNat_ofNat]
  have := x.isLt; have := y.isLt
  cases c <;> simp <;> omega

end Sys2Proof.Machine
end

