-- ==== Sys2Proof/Laws/State.lean ====
section
/-!
SUPPORT. One lemma per field per update of State, so that no later proof unfolds a record update.
-/
namespace Sys2Proof.Machine

@[simp] theorem writeReg_regs (s : State) (r : RegNum) (v : Word) : (writeReg s r v).regs = s.regs.set r.val v := rfl
@[simp] theorem writeReg_cpsr (s : State) (r : RegNum) (v : Word) : (writeReg s r v).cpsr = s.cpsr := rfl
@[simp] theorem writeReg_mem (s : State) (r : RegNum) (v : Word) : (writeReg s r v).mem = s.mem := rfl
@[simp] theorem writeReg_pc (s : State) (r : RegNum) (v : Word) : (writeReg s r v).pc = s.pc := rfl
@[simp] theorem writeReg_st (s : State) (r : RegNum) (v : Word) : (writeReg s r v).st = s.st := rfl
@[simp] theorem writeReg_lp (s : State) (r : RegNum) (v : Word) : (writeReg s r v).lp = s.lp := rfl
@[simp] theorem writeReg_params (s : State) (r : RegNum) (v : Word) : (writeReg s r v).params = s.params := rfl

@[simp] theorem setCpsr_regs (s : State) (w : Word) : (setCpsr s w).regs = s.regs := rfl
@[simp] theorem setCpsr_cpsr (s : State) (w : Word) : (setCpsr s w).cpsr = w := rfl
@[simp] theorem setCpsr_mem (s : State) (w : Word) : (setCpsr s w).mem = s.mem := rfl
@[simp] theorem setCpsr_pc (s : State) (w : Word) : (setCpsr s w).pc = s.pc := rfl
@[simp] theorem setCpsr_st (s : State) (w : Word) : (setCpsr s w).st = s.st := rfl
@[simp] theorem setCpsr_lp (s : State) (w : Word) : (setCpsr s w).lp = s.lp := rfl
@[simp] theorem setCpsr_params (s : State) (w : Word) : (setCpsr s w).params = s.params := rfl

@[simp] theorem setMem_regs (s : State) (m : Memory) : (setMem s m).regs = s.regs := rfl
@[simp] theorem setMem_cpsr (s : State) (m : Memory) : (setMem s m).cpsr = s.cpsr := rfl
@[simp] theorem setMem_mem (s : State) (m : Memory) : (setMem s m).mem = m := rfl
@[simp] theorem setMem_pc (s : State) (m : Memory) : (setMem s m).pc = s.pc := rfl
@[simp] theorem setMem_st (s : State) (m : Memory) : (setMem s m).st = s.st := rfl
@[simp] theorem setMem_lp (s : State) (m : Memory) : (setMem s m).lp = s.lp := rfl
@[simp] theorem setMem_params (s : State) (m : Memory) : (setMem s m).params = s.params := rfl

@[simp] theorem advance_regs (s : State) : (advance s).regs = s.regs := rfl
@[simp] theorem advance_cpsr (s : State) : (advance s).cpsr = s.cpsr := rfl
@[simp] theorem advance_mem (s : State) : (advance s).mem = s.mem := rfl
@[simp] theorem advance_pc (s : State) : (advance s).pc = s.pc + 1 := rfl
@[simp] theorem advance_st (s : State) : (advance s).st = s.st := rfl
@[simp] theorem advance_lp (s : State) : (advance s).lp = s.lp := rfl
@[simp] theorem advance_params (s : State) : (advance s).params = s.params := rfl

@[simp] theorem jumpTo_regs (s : State) (k : Nat) : (jumpTo s k).regs = s.regs := rfl
@[simp] theorem jumpTo_cpsr (s : State) (k : Nat) : (jumpTo s k).cpsr = s.cpsr := rfl
@[simp] theorem jumpTo_mem (s : State) (k : Nat) : (jumpTo s k).mem = s.mem := rfl
@[simp] theorem jumpTo_pc (s : State) (k : Nat) : (jumpTo s k).pc = k := rfl
@[simp] theorem jumpTo_st (s : State) (k : Nat) : (jumpTo s k).st = s.st := rfl
@[simp] theorem jumpTo_lp (s : State) (k : Nat) : (jumpTo s k).lp = s.lp := rfl
@[simp] theorem jumpTo_params (s : State) (k : Nat) : (jumpTo s k).params = s.params := rfl

@[simp] theorem complete_regs (s : State) : (complete s).regs = s.regs := rfl
@[simp] theorem complete_cpsr (s : State) : (complete s).cpsr = s.cpsr := rfl
@[simp] theorem complete_mem (s : State) : (complete s).mem = s.mem := rfl
@[simp] theorem complete_pc (s : State) : (complete s).pc = s.pc := rfl
@[simp] theorem complete_st (s : State) : (complete s).st = if progLength s ≤ s.pc then .halted else .ready := rfl
@[simp] theorem complete_lp (s : State) : (complete s).lp = s.lp := rfl
@[simp] theorem complete_params (s : State) : (complete s).params = s.params := rfl

@[simp] theorem takeError_regs (s : State) (e : RunError) : (takeError s e).regs = s.regs := rfl
@[simp] theorem takeError_cpsr (s : State) (e : RunError) : (takeError s e).cpsr = s.cpsr := rfl
@[simp] theorem takeError_mem (s : State) (e : RunError) : (takeError s e).mem = s.mem := rfl
@[simp] theorem takeError_pc (s : State) (e : RunError) : (takeError s e).pc = s.pc := rfl
@[simp] theorem takeError_st (s : State) (e : RunError) : (takeError s e).st = .faulted ⟨e, s.pc⟩ := rfl
@[simp] theorem takeError_lp (s : State) (e : RunError) : (takeError s e).lp = s.lp := rfl
@[simp] theorem takeError_params (s : State) (e : RunError) : (takeError s e).params = s.params := rfl

@[simp] theorem haltStep_regs (s : State) : (haltStep s).regs = s.regs := rfl
@[simp] theorem haltStep_cpsr (s : State) : (haltStep s).cpsr = s.cpsr := rfl
@[simp] theorem haltStep_mem (s : State) : (haltStep s).mem = s.mem := rfl
@[simp] theorem haltStep_pc (s : State) : (haltStep s).pc = s.pc := rfl
@[simp] theorem haltStep_st (s : State) : (haltStep s).st = .halted := rfl
@[simp] theorem haltStep_lp (s : State) : (haltStep s).lp = s.lp := rfl
@[simp] theorem haltStep_params (s : State) : (haltStep s).params = s.params := rfl

@[simp] theorem load_regs (p : Program) (s : State) : (load p s).regs = s.regs := rfl
@[simp] theorem load_cpsr (p : Program) (s : State) : (load p s).cpsr = s.cpsr := rfl
@[simp] theorem load_mem (p : Program) (s : State) : (load p s).mem = s.mem := rfl
@[simp] theorem load_pc (p : Program) (s : State) : (load p s).pc = 0 := rfl
@[simp] theorem load_st (p : Program) (s : State) : (load p s).st = .ready := rfl
@[simp] theorem load_lp (p : Program) (s : State) : (load p s).lp = some p := rfl
@[simp] theorem load_params (p : Program) (s : State) : (load p s).params = s.params := rfl

@[simp] theorem cmdReset_regs (s : State) : (cmdReset s).regs = Vector.replicate 16 0 := rfl
@[simp] theorem cmdReset_cpsr (s : State) : (cmdReset s).cpsr = 0 := rfl
@[simp] theorem cmdReset_mem (s : State) : (cmdReset s).mem = [] := rfl
@[simp] theorem cmdReset_pc (s : State) : (cmdReset s).pc = 0 := rfl
@[simp] theorem cmdReset_st (s : State) : (cmdReset s).st = .ready := rfl
@[simp] theorem cmdReset_lp (s : State) : (cmdReset s).lp = none := rfl
@[simp] theorem cmdReset_params (s : State) : (cmdReset s).params = s.params := rfl

@[simp] theorem initial_regs (p : Params) : (State.initial p).regs = Vector.replicate 16 0 := rfl
@[simp] theorem initial_cpsr (p : Params) : (State.initial p).cpsr = 0 := rfl
@[simp] theorem initial_mem (p : Params) : (State.initial p).mem = [] := rfl
@[simp] theorem initial_pc (p : Params) : (State.initial p).pc = 0 := rfl
@[simp] theorem initial_st (p : Params) : (State.initial p).st = .ready := rfl
@[simp] theorem initial_lp (p : Params) : (State.initial p).lp = none := rfl
@[simp] theorem initial_params (p : Params) : (State.initial p).params = p := rfl

@[simp] theorem progLength_writeReg (s : State) (r : RegNum) (v : Word) : progLength (writeReg s r v) = progLength s := rfl
@[simp] theorem progLength_setCpsr (s : State) (w : Word) : progLength (setCpsr s w) = progLength s := rfl
@[simp] theorem progLength_setMem (s : State) (m : Memory) : progLength (setMem s m) = progLength s := rfl
@[simp] theorem progLength_advance (s : State) : progLength (advance s) = progLength s := rfl
@[simp] theorem progLength_jumpTo (s : State) (k : Nat) : progLength (jumpTo s k) = progLength s := rfl
@[simp] theorem progLength_complete (s : State) : progLength (complete s) = progLength s := rfl
@[simp] theorem progLength_takeError (s : State) (e : RunError) : progLength (takeError s e) = progLength s := rfl
@[simp] theorem progLength_haltStep (s : State) : progLength (haltStep s) = progLength s := rfl

/-- A register read after a register write. -/
theorem readReg_writeReg (s : State) (d r : RegNum) (v : Word) :
    readReg (writeReg s d v) r = if r = d then v else readReg s r := by
  by_cases h : r = d
  · subst h; simp [readReg]
  · have h' : d.val ≠ r.val := fun e => h (Fin.ext e.symm)
    simp [readReg, h, h']

/-- Registers are the only thing a register read looks at. -/
theorem readReg_congr {s t : State} (h : t.regs = s.regs) (r : RegNum) : readReg t r = readReg s r := by
  simp [readReg, h]

end Sys2Proof.Machine
end

