-- ==== Sys2Proof/Laws/Memory.lean ====
section
/-!
SUPPORT. Laws of data memory: what each operation reads back, and that each keeps the canonical form.
-/
namespace Sys2Proof.Machine

theorem readByte_eraseByte (m : Memory) (a b : Nat) :
    readByte (eraseByte m a) b = if b = a then unlistedByte else readByte m b := by
  induction m with
  | nil => simp [eraseByte, readByte]
  | cons c m ih =>
    obtain ⟨k, w⟩ := c
    simp only [eraseByte] at ih
    by_cases hk : k = a
    · subst hk
      by_cases hb : b = k
      · subst hb; simpa [eraseByte] using ih
      · simpa [eraseByte, readByte, hb, Ne.symm hb] using ih
    · by_cases hb : b = a
      · subst hb; simpa [eraseByte, readByte, hk] using ih
      · simp [eraseByte, readByte, hk, hb] at ih ⊢
        rw [ih]

theorem readByte_insertByte (m : Memory) (a b : Nat) (v : Byte) (h : ∀ c ∈ m, c.1 ≠ a) :
    readByte (insertByte m a v) b = if b = a then v else readByte m b := by
  induction m with
  | nil => simp [insertByte, readByte, eq_comm]
  | cons c m ih =>
    obtain ⟨k, w⟩ := c
    have hk : k ≠ a := h (k, w) (by simp)
    have ih := ih (fun c hc => h c (by simp [hc]))
    by_cases hlt : a < k
    · simp [insertByte, readByte, hlt, eq_comm]
    · by_cases hb : b = a
      · subst hb; simp [insertByte, readByte, hlt, hk, ih]
      · simp [insertByte, readByte, hlt, hb, ih]

theorem eraseByte_ne (m : Memory) (a : Nat) : ∀ c ∈ eraseByte m a, c.1 ≠ a := by
  intro c hc; simp [eraseByte] at hc; exact hc.2

/-- A byte read after a byte write: the value written at its address, the old byte elsewhere. -/
theorem readByte_writeByte (m : Memory) (a b : Nat) (v : Byte) :
    readByte (writeByte m a v) b = if b = a then v else readByte m b := by
  by_cases hv : v = unlistedByte
  · simp [writeByte, hv, readByte_eraseByte]
  · simp only [writeByte, hv, if_false]
    rw [readByte_insertByte _ _ _ _ (eraseByte_ne m a), readByte_eraseByte]
    split <;> rfl

/-- The lowest address that `wfAbove` allows next. -/
theorem wfAbove_cons {lo : Option Nat} {k : Nat} {w : Byte} {m : Memory} :
    wfAbove lo ((k, w) :: m) = true ↔ (∀ l, lo = some l → l < k) ∧ w ≠ unlistedByte ∧ wfAbove (some k) m = true := by
  cases lo <;> simp [wfAbove, and_assoc]

theorem wfAbove_mono {lo : Option Nat} {k : Nat} {m : Memory} (h : wfAbove (some k) m = true)
    (hk : ∀ l, lo = some l → l ≤ k) : wfAbove lo m = true := by
  cases m with
  | nil => simp [wfAbove]
  | cons c m =>
    obtain ⟨b, w⟩ := c
    rw [wfAbove_cons] at h ⊢
    exact ⟨fun l hl => Nat.lt_of_le_of_lt (hk l hl) (h.1 k rfl), h.2⟩

theorem wfAbove_eraseByte {lo : Option Nat} {m : Memory} (a : Nat) (h : wfAbove lo m = true) :
    wfAbove lo (eraseByte m a) = true := by
  induction m generalizing lo with
  | nil => simp [eraseByte, wfAbove]
  | cons c m ih =>
    obtain ⟨k, w⟩ := c
    rw [wfAbove_cons] at h
    by_cases hk : k = a
    · have : eraseByte ((k, w) :: m) a = eraseByte m a := by simp [eraseByte, hk]
      rw [this]
      exact wfAbove_mono (ih h.2.2) (fun l hl => Nat.le_of_lt (h.1 l hl))
    · have : eraseByte ((k, w) :: m) a = (k, w) :: eraseByte m a := by simp [eraseByte, hk]
      rw [this, wfAbove_cons]
      exact ⟨h.1, h.2.1, ih h.2.2⟩

theorem wfAbove_insertByte {lo : Option Nat} {m : Memory} {a : Nat} {v : Byte} (h : wfAbove lo m = true)
    (hlo : ∀ l, lo = some l → l < a) (hv : v ≠ unlistedByte) (hne : ∀ c ∈ m, c.1 ≠ a) :
    wfAbove lo (insertByte m a v) = true := by
  induction m generalizing lo with
  | nil => rw [insertByte, wfAbove_cons]; exact ⟨hlo, hv, by simp [wfAbove]⟩
  | cons c m ih =>
    obtain ⟨k, w⟩ := c
    have hk : k ≠ a := hne (k, w) (by simp)
    rw [wfAbove_cons] at h
    by_cases hlt : a < k
    · simp only [insertByte, hlt, if_true, wfAbove_cons]
      exact ⟨hlo, hv, fun l hl => by cases hl; exact hlt, h.2⟩
    · simp only [insertByte, hlt, if_false, wfAbove_cons]
      exact ⟨h.1, h.2.1, ih h.2.2 (fun l hl => by cases hl; omega) (fun c hc => hne c (by simp [hc]))⟩

/-- A byte write keeps the canonical form. -/
theorem wf_writeByte {m : Memory} (a : Nat) (v : Byte) (h : m.wf = true) : Memory.wf (writeByte m a v) = true := by
  unfold Memory.wf at *
  by_cases hv : v = unlistedByte
  · simp only [writeByte, hv, if_true]; exact wfAbove_eraseByte a h
  · simp only [writeByte, hv, if_false]
    exact wfAbove_insertByte (wfAbove_eraseByte a h) (fun l hl => by cases hl) hv (eraseByte_ne m a)

/-- A word write keeps the canonical form. -/
theorem wf_writeWord {m : Memory} (a : Nat) (v : Word) (h : m.wf = true) : Memory.wf (writeWord m a v) = true :=
  wf_writeByte _ _ (wf_writeByte _ _ (wf_writeByte _ _ (wf_writeByte _ _ h)))

/-- The empty memory of reset is canonical. -/
theorem wf_nil : Memory.wf [] = true := rfl

/-- A byte read after a word write: byte `i` of the word at `a + i`, the old byte elsewhere. -/
theorem readByte_writeWord (m : Memory) (a b : Nat) (v : Word) :
    readByte (writeWord m a v) b =
      if b = a + 3 then byteOf v 3 else if b = a + 2 then byteOf v 2
      else if b = a + 1 then byteOf v 1 else if b = a then byteOf v 0 else readByte m b := by
  simp only [writeWord, readByte_writeByte]

/-- Outside the four bytes of the word every byte is as it was. -/
theorem readByte_writeWord_outside (m : Memory) {a b : Nat} (v : Word) (h : b < a ∨ a + 4 ≤ b) :
    readByte (writeWord m a v) b = readByte m b := by
  rw [readByte_writeWord, if_neg (by omega), if_neg (by omega), if_neg (by omega), if_neg (by omega)]

theorem bytes_of_word (v : Word) : byteOf v 3 ++ byteOf v 2 ++ byteOf v 1 ++ byteOf v 0 = v := by
  apply BitVec.eq_of_getLsbD_eq
  intro i hi
  simp only [byteOf, BitVec.getLsbD_append, BitVec.getLsbD_extractLsb']
  interval_cases i <;> simp

/-- A word read after a word write at its address is the word. -/
theorem readWord_writeWord_self (m : Memory) (a : Nat) (v : Word) : readWord (writeWord m a v) a = v := by
  simp only [readWord, readByte_writeWord]
  simpa using bytes_of_word v

/-- A word read after a word write that shares no byte with it is the old word. -/
theorem readWord_writeWord_other (m : Memory) {a b : Nat} (v : Word) (h : b + 4 ≤ a ∨ a + 4 ≤ b) :
    readWord (writeWord m a v) b = readWord m b := by
  simp only [readWord]
  rw [readByte_writeWord_outside m v (by omega), readByte_writeWord_outside m v (by omega),
    readByte_writeWord_outside m v (by omega), readByte_writeWord_outside m v (by omega)]

/-- Every cell of a memory after a byte write is an old cell or the cell written. -/
theorem mem_writeByte {m : Memory} {a : Nat} {v : Byte} {c : Host.Cell} (h : c ∈ writeByte m a v) :
    c ∈ m ∨ c = (a, v) := by
  have ins : ∀ m : Memory, c ∈ insertByte m a v → c ∈ m ∨ c = (a, v) := by
    intro m
    induction m with
    | nil => simp [insertByte]
    | cons d m ih =>
      obtain ⟨k, w⟩ := d
      by_cases hlt : a < k
      · simp only [insertByte, hlt, if_true, List.mem_cons]; tauto
      · simp only [insertByte, hlt, if_false, List.mem_cons]; tauto
  by_cases hv : v = unlistedByte
  · simp only [writeByte, hv, if_true, eraseByte, List.mem_filter] at h; exact .inl h.1
  · simp only [writeByte, hv, if_false] at h
    rcases ins _ h with h | h
    · simp only [eraseByte, List.mem_filter] at h; exact .inl h.1
    · exact .inr h

/-- Every cell of a memory after a word write is an old cell or lies in the word. -/
theorem mem_writeWord {m : Memory} {a : Nat} {v : Word} {c : Host.Cell} (h : c ∈ writeWord m a v) :
    c ∈ m ∨ (a ≤ c.1 ∧ c.1 < a + 4) := by
  rcases mem_writeByte h with h | h
  · rcases mem_writeByte h with h | h
    · rcases mem_writeByte h with h | h
      · rcases mem_writeByte h with h | h
        · exact .inl h
        · right; subst h; simp
      · right; subst h; simp
    · right; subst h; simp
  · right; subst h; simp

end Sys2Proof.Machine
end

