-- ==== Sys2Proof/Laws/Ops.lean ====
section
/-!
SUPPORT. What the shared operations can do: the address check, the memory primitives, the label lookup, the target and
the fetch.
-/
namespace Sys2Proof.Machine

/-- The address check in natural numbers: alignment, then the window, then the word index. -/
theorem wordIndex_eq (p : Params) (a : Nat) :
    wordIndex p a =
      if a % 4 ≠ 0 then .error (.misaligned a)
      else if a < p.physMemBase ∨ p.physMemBase + 4 * p.memWords ≤ a then .error (.outOfWindow a)
      else .ok ((a - p.physMemBase) / 4) := by
  unfold wordIndex
  by_cases h : a % 4 ≠ 0
  · simp [h]
  · simp only [if_neg h]
    by_cases hw : a < p.physMemBase ∨ p.physMemBase + 4 * p.memWords ≤ a
    · rw [if_pos hw, if_pos (by omega)]
    · rw [if_neg hw, if_neg (by omega)]
      congr 1
      omega

/-- The check of an address inside the window. -/
theorem wordIndex_window (p : Params) {a : Nat} (ha : a % 4 = 0) (h1 : p.physMemBase ≤ a)
    (h2 : a < p.physMemBase + 4 * p.memWords) : wordIndex p a = .ok ((a - p.physMemBase) / 4) := by
  rw [wordIndex_eq, if_neg (by omega), if_neg (by omega)]

/-- A `MemWrite` that succeeds: the address is aligned and in the window, and only memory changes. -/
theorem memWrite_ok {s t : State} {a : Nat} {v : Word} (h : memWrite s a v = .ok t) :
    t = setMem s (writeWord s.mem a v) ∧ a % 4 = 0 ∧ s.params.physMemBase ≤ a ∧
      a < s.params.physMemBase + 4 * s.params.memWords := by
  unfold memWrite at h
  rw [wordIndex_eq] at h
  by_cases h1 : a % 4 ≠ 0
  · simp [h1] at h
  · by_cases h2 : a < s.params.physMemBase ∨ s.params.physMemBase + 4 * s.params.memWords ≤ a
    · simp [h1, h2] at h
    · simp only [if_neg h1, if_neg h2, Except.ok.injEq] at h
      exact ⟨h.symm, by omega, by omega, by omega⟩

/-- A `MemWrite` to an aligned address in the window succeeds. -/
theorem memWrite_window (s : State) {a : Nat} (v : Word) (ha : a % 4 = 0) (h1 : s.params.physMemBase ≤ a)
    (h2 : a < s.params.physMemBase + 4 * s.params.memWords) :
    memWrite s a v = .ok (setMem s (writeWord s.mem a v)) := by
  rw [memWrite, wordIndex_window _ ha h1 h2]

/-- A `MemRead` of an aligned address in the window succeeds. -/
theorem memRead_window (s : State) {a : Nat} (ha : a % 4 = 0) (h1 : s.params.physMemBase ≤ a)
    (h2 : a < s.params.physMemBase + 4 * s.params.memWords) : memRead s a = .ok (readWord s.mem a) := by
  rw [memRead, wordIndex_window _ ha h1 h2]

/-- The error of a memory primitive is that of its address check. -/
theorem memWrite_error {s : State} {a : Nat} {v : Word} {e : RunError} :
    memWrite s a v = .error e ↔ wordIndex s.params a = .error e := by
  unfold memWrite; split <;> simp_all

theorem memRead_error {s : State} {a : Nat} {e : RunError} :
    memRead s a = .error e ↔ wordIndex s.params a = .error e := by
  unfold memRead; split <;> simp_all

/-- The label lookup succeeds exactly on a label with one index. -/
theorem lookupLabel_ok {tbl : List (Text × List Nat)} {name : Text} {k : Nat} :
    lookupLabel tbl name = .ok k ↔ labelIndices tbl name = [k] := by
  unfold lookupLabel; split <;> simp_all

/-- A target index is found exactly for a register target. -/
theorem targetIndex_ok {rd : Target} {d : RegNum} : targetIndex rd = .ok d ↔ rd = .reg d := by
  cases rd <;> simp [targetIndex]

/-- What a fetch that finds something says of the program store. -/
theorem fetch_instr {s : State} {i : Instr} (h : fetch s = .instr i) :
    ∃ p o, s.lp = some p ∧ p.operations[s.pc]? = some o ∧ decodeBundle o.bundle = .ok i := by
  unfold fetch at h
  split at h
  · cases h
  · rename_i p hp
    split at h
    · cases h
    · rename_i o ho
      split at h
      · cases h
      · rename_i j hj; cases h; exact ⟨p, o, hp, ho, hj⟩

theorem fetch_rejected {s : State} {r : Reject} (h : fetch s = .rejected r) :
    ∃ p o, s.lp = some p ∧ p.operations[s.pc]? = some o ∧ decodeBundle o.bundle = .error r := by
  unfold fetch at h
  split at h
  · cases h
  · rename_i p hp
    split at h
    · cases h
    · rename_i o ho
      split at h
      · rename_i r' hr; cases h; exact ⟨p, o, hp, ho, hr⟩
      · cases h

theorem fetch_terminal {s : State} (h : fetch s = .terminal) : ∃ p, s.lp = some p ∧ p.operations.length ≤ s.pc := by
  unfold fetch at h
  split at h
  · cases h
  · rename_i p hp
    split at h
    · rename_i ho; exact ⟨p, hp, by simpa using ho⟩
    · split at h <;> cases h

theorem fetch_idle {s : State} (h : fetch s = .idle) : s.lp = none := by
  unfold fetch at h
  split at h
  · assumption
  · split at h
    · cases h
    · split at h <;> cases h

/-- A fetch looks at the program and the cursor only. -/
theorem fetch_congr {s t : State} (hl : t.lp = s.lp) (hp : t.pc = s.pc) : fetch t = fetch s := by
  simp [fetch, hl, hp]

end Sys2Proof.Machine
end

