-- ==== Sys2Proof/Laws/Operands.lean ====
section
/-!
SUPPORT. What the Operand Resolver looks at, and what its answers can be.
-/
namespace Sys2Proof.Machine

/-- The resolver looks at registers, CPSR and parameters only. -/
theorem resolveSimple_congr {s t : State} (hr : t.regs = s.regs) (hc : t.cpsr = s.cpsr) (o : Simple) :
    resolveSimple t o = resolveSimple s o := by
  cases o <;> simp [resolveSimple, readReg, hr, hc]

theorem resolve_congr {s t : State} (hr : t.regs = s.regs) (hc : t.cpsr = s.cpsr) (hp : t.params = s.params)
    (o : Operand) : resolve t o = resolve s o := by
  cases o with
  | simple o => exact resolveSimple_congr hr hc o
  | shift k b a =>
    have ha : resolveAmount t a = resolveAmount s a := by
      cases a with
      | none => rfl
      | some a => exact resolveSimple_congr hr hc a
    simp [resolve, resolveSimple_congr hr hc, ha, hc, hp]

theorem resolveTwo_congr {s t : State} (hr : t.regs = s.regs) (hc : t.cpsr = s.cpsr) (hp : t.params = s.params)
    (x y : Operand) : resolveTwo t x y = resolveTwo s x y := by
  simp [resolveTwo, resolve_congr hr hc hp]

/-- A token's class fails to resolve with a DecodeError only. -/
theorem resolveSimple_error {s : State} {o : Simple} {e : RunError} (h : resolveSimple s o = .error e) :
    ∃ tok, o = .bad tok ∧ e = .decodeError tok := by
  cases o <;> simp [resolveSimple] at h
  exact ⟨_, rfl, h.symm⟩

/-- An operand fails to resolve with a DecodeError only. -/
theorem resolve_error {s : State} {o : Operand} {e : RunError} (h : resolve s o = .error e) :
    ∃ tok, e = .decodeError tok := by
  cases o with
  | simple o => obtain ⟨tok, -, rfl⟩ := resolveSimple_error h; exact ⟨tok, rfl⟩
  | shift k b a =>
    simp only [resolve] at h
    split at h
    · rename_i hb; cases h; obtain ⟨tok, -, rfl⟩ := resolveSimple_error hb; exact ⟨tok, rfl⟩
    · split at h
      · rename_i ha
        cases h
        cases a with
        | none => cases ha
        | some a => obtain ⟨tok, -, rfl⟩ := resolveSimple_error ha; exact ⟨tok, rfl⟩
      · cases h

/-- Two sources resolve exactly when each does. -/
theorem resolveTwo_ok {s : State} {x y : Operand} {a b : Word} :
    resolveTwo s x y = .ok (a, b) ↔ resolve s x = .ok a ∧ resolve s y = .ok b := by
  unfold resolveTwo
  split <;> simp_all
  split <;> simp_all

end Sys2Proof.Machine
end

