-- ==== Sys2Proof/Laws/PerInstr.lean ====
section
/-!
SUPPORT. Statements for every instruction as syntax, one lemma per constructor.
-/
namespace Sys2Proof.Laws

/-- The header of an instruction's bundle holds its mnemonic's code, its condition's code (14 with no suffix), its S and
its cp bit, and zero in bits 15:11; its descriptors are the target, if any, and as many sources as R82 and R83 give, or
the label alone (spec/30_encoding.md R82, R83, R91 to R93). -/
def HeaderFields.Statement (i : Instr) : Prop :=
  headerOp (encode i).header = i.mnemonic.code ∧ headerCond (encode i).header = i.suffix.condCode ∧
    headerS (encode i).header = i.suffix.s ∧ headerCp (encode i).header = i.suffix.cond.isSome ∧
    headerZero (encode i).header = 0 ∧
    (encode i).descs.length = i.mnemonic.operandCount + 1 ∧
    (i.target.isSome = decide (i.mnemonic.shape = .registerUpdate))

/-- The header part holds of every mnemonic and suffix. -/
theorem header_fields (m : Mnemonic) (f : Suffix) :
    headerOp (encodeHeader m f) = m.code ∧ headerCond (encodeHeader m f) = f.condCode ∧
      headerS (encodeHeader m f) = f.s ∧ headerCp (encodeHeader m f) = f.cond.isSome ∧
      headerZero (encodeHeader m f) = 0 :=
  ⟨headerOp_encodeHeader m f, headerCond_encodeHeader m f, headerS_encodeHeader m f, headerCp_encodeHeader m f,
    headerZero_encodeHeader m f⟩

theorem HeaderFields.sub (f : Suffix) (rd : Target) (x y : Operand) : HeaderFields.Statement (.sub f rd x y) :=
  have h := header_fields .sub f
  ⟨h.1, h.2.1, h.2.2.1, h.2.2.2.1, h.2.2.2.2, rfl, rfl⟩

theorem HeaderFields.rsb (f : Suffix) (rd : Target) (x y : Operand) : HeaderFields.Statement (.rsb f rd x y) :=
  have h := header_fields .rsb f
  ⟨h.1, h.2.1, h.2.2.1, h.2.2.2.1, h.2.2.2.2, rfl, rfl⟩

theorem HeaderFields.add (f : Suffix) (rd : Target) (x y : Operand) : HeaderFields.Statement (.add f rd x y) :=
  have h := header_fields .add f
  ⟨h.1, h.2.1, h.2.2.1, h.2.2.2.1, h.2.2.2.2, rfl, rfl⟩

theorem HeaderFields.adc (f : Suffix) (rd : Target) (x y : Operand) : HeaderFields.Statement (.adc f rd x y) :=
  have h := header_fields .adc f
  ⟨h.1, h.2.1, h.2.2.1, h.2.2.2.1, h.2.2.2.2, rfl, rfl⟩

theorem HeaderFields.sbc (f : Suffix) (rd : Target) (x y : Operand) : HeaderFields.Statement (.sbc f rd x y) :=
  have h := header_fields .sbc f
  ⟨h.1, h.2.1, h.2.2.1, h.2.2.2.1, h.2.2.2.2, rfl, rfl⟩

theorem HeaderFields.rsc (f : Suffix) (rd : Target) (x y : Operand) : HeaderFields.Statement (.rsc f rd x y) :=
  have h := header_fields .rsc f
  ⟨h.1, h.2.1, h.2.2.1, h.2.2.2.1, h.2.2.2.2, rfl, rfl⟩

theorem HeaderFields.tst (f : Suffix) (x y : Operand) : HeaderFields.Statement (.tst f x y) :=
  have h := header_fields .tst f
  ⟨h.1, h.2.1, h.2.2.1, h.2.2.2.1, h.2.2.2.2, rfl, rfl⟩

theorem HeaderFields.teq (f : Suffix) (x y : Operand) : HeaderFields.Statement (.teq f x y) :=
  have h := header_fields .teq f
  ⟨h.1, h.2.1, h.2.2.1, h.2.2.2.1, h.2.2.2.2, rfl, rfl⟩

theorem HeaderFields.cmp (f : Suffix) (x y : Operand) : HeaderFields.Statement (.cmp f x y) :=
  have h := header_fields .cmp f
  ⟨h.1, h.2.1, h.2.2.1, h.2.2.2.1, h.2.2.2.2, rfl, rfl⟩

theorem HeaderFields.cmn (f : Suffix) (x y : Operand) : HeaderFields.Statement (.cmn f x y) :=
  have h := header_fields .cmn f
  ⟨h.1, h.2.1, h.2.2.1, h.2.2.2.1, h.2.2.2.2, rfl, rfl⟩

theorem HeaderFields.mov (f : Suffix) (rd : Target) (x : Operand) : HeaderFields.Statement (.mov f rd x) :=
  have h := header_fields .mov f
  ⟨h.1, h.2.1, h.2.2.1, h.2.2.2.1, h.2.2.2.2, rfl, rfl⟩

theorem HeaderFields.mvn (f : Suffix) (rd : Target) (x : Operand) : HeaderFields.Statement (.mvn f rd x) :=
  have h := header_fields .mvn f
  ⟨h.1, h.2.1, h.2.2.1, h.2.2.2.1, h.2.2.2.2, rfl, rfl⟩

theorem HeaderFields.lsl (f : Suffix) (rd : Target) (x y : Operand) : HeaderFields.Statement (.lsl f rd x y) :=
  have h := header_fields .lsl f
  ⟨h.1, h.2.1, h.2.2.1, h.2.2.2.1, h.2.2.2.2, rfl, rfl⟩

theorem HeaderFields.lsr (f : Suffix) (rd : Target) (x y : Operand) : HeaderFields.Statement (.lsr f rd x y) :=
  have h := header_fields .lsr f
  ⟨h.1, h.2.1, h.2.2.1, h.2.2.2.1, h.2.2.2.2, rfl, rfl⟩

theorem HeaderFields.asr (f : Suffix) (rd : Target) (x y : Operand) : HeaderFields.Statement (.asr f rd x y) :=
  have h := header_fields .asr f
  ⟨h.1, h.2.1, h.2.2.1, h.2.2.2.1, h.2.2.2.2, rfl, rfl⟩

theorem HeaderFields.ror (f : Suffix) (rd : Target) (x y : Operand) : HeaderFields.Statement (.ror f rd x y) :=
  have h := header_fields .ror f
  ⟨h.1, h.2.1, h.2.2.1, h.2.2.2.1, h.2.2.2.2, rfl, rfl⟩

theorem HeaderFields.rrx (f : Suffix) (rd : Target) (x : Operand) : HeaderFields.Statement (.rrx f rd x) :=
  have h := header_fields .rrx f
  ⟨h.1, h.2.1, h.2.2.1, h.2.2.2.1, h.2.2.2.2, rfl, rfl⟩

theorem HeaderFields.ldr (f : Suffix) (rd : Target) (x : Operand) : HeaderFields.Statement (.ldr f rd x) :=
  have h := header_fields .ldr f
  ⟨h.1, h.2.1, h.2.2.1, h.2.2.2.1, h.2.2.2.2, rfl, rfl⟩

theorem HeaderFields.str (f : Suffix) (x y : Operand) : HeaderFields.Statement (.str f x y) :=
  have h := header_fields .str f
  ⟨h.1, h.2.1, h.2.2.1, h.2.2.2.1, h.2.2.2.2, rfl, rfl⟩

theorem HeaderFields.b (f : Suffix) (l : Text) : HeaderFields.Statement (.b f l) :=
  have h := header_fields .b f
  ⟨h.1, h.2.1, h.2.2.1, h.2.2.2.1, h.2.2.2.2, rfl, rfl⟩

end Sys2Proof.Laws
end

