-- ==== Sys2Proof/Laws/Shapes.lean ====
section
/-!
SUPPORT. What an executed instruction and a step can do, said once.
-/
namespace Sys2Proof.Machine

/-- One operation, from its condition on: skipped, failed, or completed. -/
theorem runOperation_cases {f : Suffix} {body : State → Except RunError State} {s t : State}
    (h : runOperation f body s = .next t) :
    (suffixHolds f s.cpsr = false ∧ t = complete (advance s)) ∨
    (suffixHolds f s.cpsr = true ∧ ∃ e, body s = .error e ∧ t = takeError s e) ∨
    (suffixHolds f s.cpsr = true ∧ ∃ u, body s = .ok u ∧ t = complete u) := by
  unfold runOperation at h
  split at h
  · rename_i hc
    split at h
    · rename_i e he; cases h; exact .inr (.inl ⟨hc, e, he, rfl⟩)
    · rename_i u hu; cases h; exact .inr (.inr ⟨hc, u, hu, rfl⟩)
  · rename_i hc; cases h; exact .inl ⟨by simpa using hc, rfl⟩

/-- An operation whose condition holds and whose body succeeds. -/
theorem runOperation_ok {f : Suffix} {body : State → Except RunError State} {s u : State}
    (hc : suffixHolds f s.cpsr = true) (h : body s = .ok u) : runOperation f body s = .next (complete u) := by
  simp [runOperation, hc, h]

/-- An operation whose condition holds and whose body fails. -/
theorem runOperation_error {f : Suffix} {body : State → Except RunError State} {s : State} {e : RunError}
    (hc : suffixHolds f s.cpsr = true) (h : body s = .error e) : runOperation f body s = .next (takeError s e) := by
  simp [runOperation, hc, h]

/-- The writes of a Register-update operation. -/
def regUpdated (mode : FlagMode) (setS : Bool) (s : State) (d : RegNum) (r : Raw) : State :=
  advance (if setS then setCpsr (writeReg s d r.res) (setFlags mode r s.cpsr) else writeReg s d r.res)

@[simp] theorem regUpdated_regs (m : FlagMode) (b : Bool) (s : State) (d : RegNum) (r : Raw) :
    (regUpdated m b s d r).regs = s.regs.set d.val r.res := by cases b <;> rfl
@[simp] theorem regUpdated_cpsr (m : FlagMode) (b : Bool) (s : State) (d : RegNum) (r : Raw) :
    (regUpdated m b s d r).cpsr = if b then setFlags m r s.cpsr else s.cpsr := by cases b <;> rfl
@[simp] theorem regUpdated_mem (m : FlagMode) (b : Bool) (s : State) (d : RegNum) (r : Raw) :
    (regUpdated m b s d r).mem = s.mem := by cases b <;> rfl
@[simp] theorem regUpdated_pc (m : FlagMode) (b : Bool) (s : State) (d : RegNum) (r : Raw) :
    (regUpdated m b s d r).pc = s.pc + 1 := by cases b <;> rfl
@[simp] theorem regUpdated_lp (m : FlagMode) (b : Bool) (s : State) (d : RegNum) (r : Raw) :
    (regUpdated m b s d r).lp = s.lp := by cases b <;> rfl
@[simp] theorem regUpdated_params (m : FlagMode) (b : Bool) (s : State) (d : RegNum) (r : Raw) :
    (regUpdated m b s d r).params = s.params := by cases b <;> rfl

/-- The Register-update shape succeeds exactly when its computation does and its target is a register. -/
theorem regUpdateBody_ok {mode : FlagMode} {setS : Bool} {rd : Target} {compute : State → Except RunError Raw}
    {s u : State} : regUpdateBody mode setS rd compute s = .ok u ↔
      ∃ r d, compute s = .ok r ∧ rd = .reg d ∧ u = regUpdated mode setS s d r := by
  unfold regUpdateBody
  cases hc : compute s with
  | error e => simp
  | ok r =>
    cases rd with
    | bad t => simp [targetIndex]
    | reg d =>
      simp only [targetIndex, Except.ok.injEq, Target.reg.injEq]
      constructor
      · rintro rfl; exact ⟨r, d, rfl, rfl, rfl⟩
      · rintro ⟨r', d', rfl, rfl, rfl⟩; rfl

/-- The Compare-only shape succeeds exactly when its computation does. -/
theorem compareBody_ok {mode : FlagMode} {compute : State → Except RunError Raw} {s u : State} :
    compareBody mode compute s = .ok u ↔
      ∃ r, compute s = .ok r ∧ u = advance (setCpsr s (setFlags mode r s.cpsr)) := by
  unfold compareBody
  cases compute s <;> simp [eq_comm]

/-- The Store shape succeeds exactly when both sources resolve and the write does. -/
theorem storeBody_ok {x y : Operand} {s u : State} : storeBody x y s = .ok u ↔
    ∃ v a t, resolve s x = .ok v ∧ resolve s y = .ok a ∧ memWrite s a.toNat v = .ok t ∧ u = advance t := by
  unfold storeBody
  cases h : resolveTwo s x y with
  | error e =>
    simp only [reduceCtorEq, false_iff]
    rintro ⟨v, a, t, hx, hy, -⟩
    rw [resolveTwo_ok.2 ⟨hx, hy⟩] at h; cases h
  | ok r =>
    obtain ⟨v, a⟩ := r
    obtain ⟨hx, hy⟩ := resolveTwo_ok.1 h
    cases hw : memWrite s a.toNat v <;> simp [hx, hy, hw, eq_comm]

/-- The Branch shape succeeds exactly on a label with one index. -/
theorem branchBody_ok {l : Text} {s u : State} : branchBody l s = .ok u ↔
    ∃ k, labelIndices (progLabels s) l = [k] ∧ u = jumpTo s k := by
  unfold branchBody
  cases h : lookupLabel (progLabels s) l with
  | error e =>
    simp only [reduceCtorEq, false_iff]
    rintro ⟨k, hk, -⟩
    rw [lookupLabel_ok.2 hk] at h; cases h
  | ok k => simp [lookupLabel_ok.1 h, eq_comm]

/-- Everything an executed instruction can do: be skipped, raise an error, write its target register (and the flags with
`S`), set the flags, store a word, or jump. -/
theorem exec_cases {i : Instr} {s t : State} (h : exec i s = .next t) :
    (suffixHolds i.suffix s.cpsr = false ∧ t = complete (advance s)) ∨
    (suffixHolds i.suffix s.cpsr = true ∧
      ((∃ e, t = takeError s e) ∨
       (i.mnemonic.shape = .registerUpdate ∧ ∃ d r, i.target = some (.reg d) ∧
          t = complete (regUpdated i.mnemonic.mode i.suffix.s s d r)) ∨
       (i.mnemonic.shape = .compareOnly ∧ ∃ r,
          t = complete (advance (setCpsr s (setFlags i.mnemonic.mode r s.cpsr)))) ∨
       (∃ f x y v a, i = .str f x y ∧ resolve s x = .ok v ∧ resolve s y = .ok a ∧ a.toNat % 4 = 0 ∧
          s.params.physMemBase ≤ a.toNat ∧ a.toNat < s.params.physMemBase + 4 * s.params.memWords ∧
          t = complete (advance (setMem s (writeWord s.mem a.toNat v)))) ∨
       (∃ f l k, i = .b f l ∧ labelIndices (progLabels s) l = [k] ∧ t = complete (jumpTo s k)))) := by
  cases i
  case str f x y =>
    rcases runOperation_cases h with ⟨hc, rfl⟩ | ⟨hc, e, -, rfl⟩ | ⟨hc, u, hu, rfl⟩
    · exact .inl ⟨hc, rfl⟩
    · exact .inr ⟨hc, .inl ⟨e, rfl⟩⟩
    · obtain ⟨v, a, t, hx, hy, hw, rfl⟩ := storeBody_ok.1 hu
      obtain ⟨rfl, h1, h2, h3⟩ := memWrite_ok hw
      exact .inr ⟨hc, .inr (.inr (.inr (.inl ⟨f, x, y, v, a, rfl, hx, hy, h1, h2, h3, rfl⟩)))⟩
  case b f l =>
    rcases runOperation_cases h with ⟨hc, rfl⟩ | ⟨hc, e, -, rfl⟩ | ⟨hc, u, hu, rfl⟩
    · exact .inl ⟨hc, rfl⟩
    · exact .inr ⟨hc, .inl ⟨e, rfl⟩⟩
    · obtain ⟨k, hk, rfl⟩ := branchBody_ok.1 hu
      exact .inr ⟨hc, .inr (.inr (.inr (.inr ⟨f, l, k, rfl, hk, rfl⟩)))⟩
  case tst | teq | cmp | cmn =>
    rcases runOperation_cases h with ⟨hc, rfl⟩ | ⟨hc, e, -, rfl⟩ | ⟨hc, u, hu, rfl⟩
    · exact .inl ⟨hc, rfl⟩
    · exact .inr ⟨hc, .inl ⟨e, rfl⟩⟩
    · obtain ⟨r, -, rfl⟩ := compareBody_ok.1 hu
      exact .inr ⟨hc, .inr (.inr (.inl ⟨rfl, r, rfl⟩))⟩
  all_goals
    rcases runOperation_cases h with ⟨hc, rfl⟩ | ⟨hc, e, -, rfl⟩ | ⟨hc, u, hu, rfl⟩
    · exact .inl ⟨hc, rfl⟩
    · exact .inr ⟨hc, .inl ⟨e, rfl⟩⟩
    · obtain ⟨r, d, -, rfl, rfl⟩ := regUpdateBody_ok.1 hu
      exact .inr ⟨hc, .inr (.inl ⟨rfl, d, r, rfl, rfl⟩)⟩

/-- An instruction always answers a next state. -/
theorem exec_next (i : Instr) (s : State) : ∃ t, exec i s = .next t := by
  have run : ∀ f body, ∃ t, runOperation f body s = .next t := by
    intro f body
    unfold runOperation
    split
    · split <;> exact ⟨_, rfl⟩
    · exact ⟨_, rfl⟩
  cases i <;> exact run _ _

/-- Everything a step can do. -/
theorem step_cases {s t : State} (h : step s = .next t) :
    (s.lp = none ∧ t = s) ∨ (∃ p, s.lp = some p ∧ p.operations.length ≤ s.pc ∧ t = haltStep s) ∨
    (∃ p, s.lp = some p ∧ s.pc < p.operations.length ∧
      ((∃ hd, fetch s = .rejected (.reservedOperation hd) ∧ t = takeError s (.reservedOperation hd)) ∨
       (∃ i, fetch s = .instr i ∧ exec i s = .next t))) := by
  have lt : ∀ {p : Program} {o : Operation}, p.operations[s.pc]? = some o → s.pc < p.operations.length := by
    intro p o ho; exact (List.getElem?_eq_some_iff.1 ho).1
  unfold step at h
  split at h
  · rename_i hf; cases h; exact .inl ⟨fetch_idle hf, rfl⟩
  · rename_i hf; cases h; obtain ⟨p, hp, hl⟩ := fetch_terminal hf; exact .inr (.inl ⟨p, hp, hl, rfl⟩)
  · rename_i hd hf; cases h
    obtain ⟨p, o, hp, ho, -⟩ := fetch_rejected hf
    exact .inr (.inr ⟨p, hp, lt ho, .inl ⟨hd, hf, rfl⟩⟩)
  · cases h
  · rename_i i hf
    obtain ⟨p, o, hp, ho, -⟩ := fetch_instr hf
    exact .inr (.inr ⟨p, hp, lt ho, .inr ⟨i, hf, h⟩⟩)

end Sys2Proof.Machine
end

