-- ==== Sys2Proof/Tests/Slice0.lean ====
section
/-!
SUPPORT. Tests. Expected values are those of spec/95_test_vectors.md (the vector's id stands in each comment) or are
written out from the encodings of spec/30_encoding.md. Each runs one step, or decodes one line or word.
-/
namespace Sys2Proof.Tests
open Sys2Proof.Machine

/-! ### Helpers -/

/-- A parameter set with loads through `[Rn]`. -/
def loading : Params := { Params.default with memIndirectLoads := true }

/-- A parameter set with 5-bit shift amounts. -/
def masking : Params := { Params.default with shiftAmountRule := .mask5 }

/-- The initial state with some registers set, NZCV in the low bits of a number, and memory. -/
def start (p : Params) (nzcv : Nat) (rs : List (RegNum × Word)) : State :=
  rs.foldl (fun s e => writeReg s e.1 e.2) (setCpsr (State.initial p) (BitVec.ofNat 32 (nzcv * 2 ^ 28)))

/-- The state after one step of a one-line program. -/
def after (s : State) (line : String) : Option State :=
  match parseProgram s.params.extraConds line.toList with
  | .error _ => none
  | .ok p =>
    match step (load p s) with
    | .next t => some t
    | .fault _ => none
    | .refused _ => none

/-- A register, the four flags and the cursor after one step. -/
def regAfter (s : State) (line : String) (r : RegNum) : Option (Word × Nat × Nat) :=
  (after s line).map (fun t => (readReg t r, t.cpsr.toNat / 2 ^ 28, t.pc))

/-- The error record after one step. -/
def errorAfter (s : State) (line : String) : Option (Nat × Nat × RunError) :=
  (after s line).bind (fun t => match t.st with
    | .faulted e => if t.regs = s.regs ∧ t.cpsr = s.cpsr ∧ t.mem = s.mem then some (e.code, e.pc, e.error) else none
    | _ => none)

/-- What a line decodes to. -/
def lineOf (s : String) : Option (Option Text × Instr) :=
  match parseLine Params.default.extraConds s.toList with
  | .ok r => some r
  | .error _ => none

/-- Why a line is refused. -/
def refusalOf (s : String) : Option LineError :=
  match parseLine Params.default.extraConds s.toList with
  | .ok _ => none
  | .error e => some e

def noSuffix : Suffix := ⟨none, false⟩
def withS : Suffix := ⟨none, true⟩

/-! ### Well-formedness: an ill-formed term for each check -/

theorem test_wf_bad_operand_that_is_a_register :
    (Instr.mov noSuffix (.reg 0) (.simple (.bad "R1".toList))).wellFormed Params.default.extraConds = false := by decide
theorem test_wf_bad_operand_with_a_separator :
    (Instr.mov noSuffix (.reg 0) (.simple (.bad "a b".toList))).wellFormed Params.default.extraConds = false := by decide
theorem test_wf_bad_operand_with_a_comment_mark :
    (Instr.mov noSuffix (.reg 0) (.simple (.bad "a;".toList))).wellFormed Params.default.extraConds = false := by decide
theorem test_wf_empty_bad_operand :
    (Instr.mov noSuffix (.reg 0) (.simple (.bad []))).wellFormed Params.default.extraConds = false := by decide
theorem test_wf_source_that_is_a_shift_kind :
    (Instr.mov noSuffix (.reg 0) (.simple (.bad "LSL".toList))).wellFormed Params.default.extraConds = false := by decide
theorem test_wf_shift_without_amount :
    (Instr.mov noSuffix (.reg 0) (.shift .lsl (.reg 1) none)).wellFormed Params.default.extraConds = false := by decide
theorem test_wf_rrx_with_amount :
    (Instr.mov noSuffix (.reg 0) (.shift .rrx (.reg 1) (some .cpsr))).wellFormed Params.default.extraConds = false := by
  decide
theorem test_wf_shift_first_in_compare :
    (Instr.cmp noSuffix (.shift .rrx (.reg 1) none) (.simple .cpsr)).wellFormed Params.default.extraConds = false := by
  decide
theorem test_wf_bad_target_that_is_a_register :
    (Instr.mov noSuffix (.bad "pc".toList) (.simple .cpsr)).wellFormed Params.default.extraConds = false := by decide
theorem test_wf_nv_not_enabled :
    (Instr.b ⟨some .nv, false⟩ "x".toList).wellFormed Params.default.extraConds = false := by decide
theorem test_wf_empty_label : (Instr.b noSuffix []).wellFormed Params.default.extraConds = false := by decide
theorem test_wf_accepts_first_token_that_is_a_shift_kind :
    (Instr.cmp noSuffix (.simple (.bad "LSL".toList)) (.simple (.reg 0))).wellFormed Params.default.extraConds = true := by
  decide

/-! ### Decoding: section 1.7 and section 8 of the vectors, and header words bit by bit -/

/-- 0x01C4: op 00100, cond 1110, s 0, cp 0, zero. Row ADD. -/
theorem test_decode_add : lineOf "ADD R2, R0, R1" =
      some (none, .add noSuffix (.reg 2) (.simple (.reg 0)) (.simple (.reg 1))) ∧
    encodeHeader .add noSuffix = 0b00000_0_0_1110_00100#16 := by decide
theorem test_decode_adc : lineOf "ADC R2, R0, #1" =
      some (none, .adc noSuffix (.reg 2) (.simple (.reg 0)) (.simple (.imm 1))) ∧
    encodeHeader .adc noSuffix = 0b00000_0_0_1110_00101#16 := by decide
theorem test_decode_sub : lineOf "SUB R2, R0, R1" =
      some (none, .sub noSuffix (.reg 2) (.simple (.reg 0)) (.simple (.reg 1))) ∧
    encodeHeader .sub noSuffix = 0b00000_0_0_1110_00010#16 := by decide
theorem test_decode_sbc : lineOf "SBC R2, R0, R1" =
      some (none, .sbc noSuffix (.reg 2) (.simple (.reg 0)) (.simple (.reg 1))) ∧
    encodeHeader .sbc noSuffix = 0b00000_0_0_1110_00110#16 := by decide
theorem test_decode_rsb : lineOf "RSB R2, R0, #0" =
      some (none, .rsb noSuffix (.reg 2) (.simple (.reg 0)) (.simple (.imm 0))) ∧
    encodeHeader .rsb noSuffix = 0b00000_0_0_1110_00011#16 := by decide
theorem test_decode_rsc : lineOf "RSC R2, R0, #0" =
      some (none, .rsc noSuffix (.reg 2) (.simple (.reg 0)) (.simple (.imm 0))) ∧
    encodeHeader .rsc noSuffix = 0b00000_0_0_1110_00111#16 := by decide
theorem test_decode_lsl : lineOf "LSL R2, R0, #3" =
      some (none, .lsl noSuffix (.reg 2) (.simple (.reg 0)) (.simple (.imm 3))) ∧
    encodeHeader .lsl noSuffix = 0b00000_0_0_1110_10000#16 := by decide
theorem test_decode_lsr : lineOf "LSR R2, R0, R1" =
      some (none, .lsr noSuffix (.reg 2) (.simple (.reg 0)) (.simple (.reg 1))) ∧
    encodeHeader .lsr noSuffix = 0b00000_0_0_1110_10001#16 := by decide
theorem test_decode_asr : lineOf "ASR R2, R0, #1" =
      some (none, .asr noSuffix (.reg 2) (.simple (.reg 0)) (.simple (.imm 1))) ∧
    encodeHeader .asr noSuffix = 0b00000_0_0_1110_10010#16 := by decide
theorem test_decode_ror : lineOf "ROR R2, R0, #8" =
      some (none, .ror noSuffix (.reg 2) (.simple (.reg 0)) (.simple (.imm 8))) ∧
    encodeHeader .ror noSuffix = 0b00000_0_0_1110_10011#16 := by decide
theorem test_decode_rrx : lineOf "RRX R2, R0" = some (none, .rrx noSuffix (.reg 2) (.simple (.reg 0))) ∧
    encodeHeader .rrx noSuffix = 0b00000_0_0_1110_10100#16 := by decide
theorem test_decode_mov : lineOf "MOV R2, #0x10" = some (none, .mov noSuffix (.reg 2) (.simple (.imm 16))) ∧
    encodeHeader .mov noSuffix = 0b00000_0_0_1110_01101#16 := by decide
theorem test_decode_mvn : lineOf "MVN R2, R0" = some (none, .mvn noSuffix (.reg 2) (.simple (.reg 0))) ∧
    encodeHeader .mvn noSuffix = 0b00000_0_0_1110_01111#16 := by decide
theorem test_decode_ldr : lineOf "LDR R2, [R0]" = some (none, .ldr noSuffix (.reg 2) (.simple (.memInd 0))) ∧
    encodeHeader .ldr noSuffix = 0b00000_0_0_1110_10101#16 := by decide
theorem test_decode_cmp : lineOf "CMP R0, R1" =
      some (none, .cmp noSuffix (.simple (.reg 0)) (.simple (.reg 1))) ∧
    encodeHeader .cmp noSuffix = 0b00000_0_0_1110_01010#16 := by decide
theorem test_decode_cmn : lineOf "CMN R0, #1" =
      some (none, .cmn noSuffix (.simple (.reg 0)) (.simple (.imm 1))) ∧
    encodeHeader .cmn noSuffix = 0b00000_0_0_1110_01011#16 := by decide
theorem test_decode_tst : lineOf "TST R0, #1" =
      some (none, .tst noSuffix (.simple (.reg 0)) (.simple (.imm 1))) ∧
    encodeHeader .tst noSuffix = 0b00000_0_0_1110_01000#16 := by decide
theorem test_decode_teq : lineOf "TEQ R0, R1" =
      some (none, .teq noSuffix (.simple (.reg 0)) (.simple (.reg 1))) ∧
    encodeHeader .teq noSuffix = 0b00000_0_0_1110_01001#16 := by decide
theorem test_decode_str : lineOf "STR R0, [R1]" =
      some (none, .str noSuffix (.simple (.reg 0)) (.simple (.memInd 1))) ∧
    encodeHeader .str noSuffix = 0b00000_0_0_1110_10110#16 := by decide
theorem test_decode_b : lineOf "B loop" = some (none, .b noSuffix "loop".toList) ∧
    encodeHeader .b noSuffix = 0b00000_0_0_1110_10111#16 := by decide

/-- The table's words of four families, operand words zero: cond EQ with cp and s set, and the bare match word. -/
theorem test_table_words :
    decodeTableWord 16 0b00000_1_1_0000_00100 =
      some (.add ⟨some .eq, true⟩ (.reg 0) (.simple (.reg 0)) (.simple (.reg 0))) ∧
    decodeTableWord 16 0x000A = some (.cmp noSuffix (.simple (.reg 0)) (.simple (.reg 0))) ∧
    decodeTableWord 16 0b00000_1_0_1111_10110 =
      some (.str ⟨some .nv, false⟩ (.simple (.reg 0)) (.simple (.reg 0))) ∧
    decodeTableWord 16 0x0017 = some (.b noSuffix []) := by decide

/-- T2, T9, T22: suffixes. -/
theorem test_decode_suffixes :
    lineOf "ADDEQS R2, R0, R1" = some (none, .add ⟨some .eq, true⟩ (.reg 2) (.simple (.reg 0)) (.simple (.reg 1))) ∧
    lineOf "MOVAL R0, #1" = some (none, .mov ⟨some .al, false⟩ (.reg 0) (.simple (.imm 1))) ∧
    lineOf "BLS x" = some (none, .b ⟨some .ls, false⟩ "x".toList) := by decide
/-- T30, T42, T40, T39, T26: shift operand, negative hex, Bad source, Bad target, label first. -/
theorem test_decode_operands :
    lineOf "ADD R0, R1, R2, LSL #3" =
      some (none, .add noSuffix (.reg 0) (.simple (.reg 1)) (.shift .lsl (.reg 2) (some (.imm 3)))) ∧
    lineOf "MOV R0, #-0x10" = some (none, .mov noSuffix (.reg 0) (.simple (.imm 0xFFFFFFF0))) ∧
    lineOf "MOV R0, R16" = some (none, .mov noSuffix (.reg 0) (.simple (.bad "R16".toList))) ∧
    lineOf "MOV cpsr, R0" = some (none, .mov noSuffix (.bad "cpsr".toList) (.simple (.reg 0))) ∧
    lineOf "B B B" = some (some "B".toList, .b noSuffix "B".toList) := by decide
/-- T3, T6, T7, T25: the line grammar. -/
theorem test_refuse_grammar : refusalOf "ADDSEQ R2, R0, R1" = some .grammar ∧
    refusalOf "ADD R0, R1, R2," = some .grammar ∧ refusalOf "add r0, r1, r2" = some .grammar ∧
    refusalOf "loop: B loop" = some .grammar := by decide
/-- T33, T34, T36: shift placement. -/
theorem test_refuse_shift_placement : refusalOf "MOV R0, R1, LSL" = some .shiftPlacement ∧
    refusalOf "MOV R0, R1, LSL, LSR #2" = some .shiftPlacement ∧
    refusalOf "MOV R0, R1, RRX, LSL #1" = some .shiftPlacement := by decide
/-- T15, T27, T31, T44: operand counts. -/
theorem test_refuse_operand_count : refusalOf "CMP R0" = some .operandCount ∧
    refusalOf "CMP MOV R0" = some .operandCount ∧ refusalOf "ADD R0, R1, LSL #3" = some .operandCount ∧
    refusalOf "RRX R0, R1, #1" = some .operandCount := by decide
/-- T48, T49: filtering. -/
theorem test_filter_lines :
    filterLines "; comment\n\n  MOV R0, #1 ; set\n".toList = ["MOV R0, #1".toList] ∧
    filterLines "MOV R0, #1\r\nMOV R1, #2\r\n".toList = ["MOV R0, #1".toList, "MOV R1, #2".toList] := by decide
/-- T47: the first failing line. -/
theorem test_first_failing_line :
    (match parseProgram Params.default.extraConds "MOV R0, #1\nADDSEQ R1, R1, R1\nBICS R0, R0, R0".toList with
      | .error e => some (e.lineIndex, e.text, e.kind, e.code) | .ok _ => none) =
      some (1, "ADDSEQ R1, R1, R1".toList, .decodeErrorBuild, 1) := by decide
/-- T50: the label table. -/
theorem test_label_table :
    (match parseProgram Params.default.extraConds "x MOV R0, #1\nB y\nx B x".toList with
      | .ok p => some p.labels | .error _ => none) = some [("x".toList, [0, 2])] := by decide

/-! ### One step of each instruction -/

/-- A2. -/
theorem test_add_overflow : regAfter (start Params.default 0 [(0, 0x7FFFFFFF), (1, 1)]) "ADDS R2, R0, R1" 2 =
    some (0x80000000, 0b1001, 1) := by decide
/-- A4. -/
theorem test_add_zero_by_wrap : regAfter (start Params.default 0 [(0, 0x80000000), (1, 0x80000000)]) "ADDS R2, R0, R1" 2 =
    some (0, 0b0111, 1) := by decide
/-- A7. -/
theorem test_adc_carry_in : regAfter (start Params.default 0b0010 [(1, 0xFFFFFFFF)]) "ADCS R3, R1, #0" 3 =
    some (0, 0b0110, 1) := by decide
/-- A11. -/
theorem test_sub_borrow : regAfter (start Params.default 0 [(0, 3), (1, 5)]) "SUBS R2, R0, R1" 2 =
    some (0xFFFFFFFE, 0b1000, 1) := by decide
/-- A17. -/
theorem test_sbc_zero_by_wrap : regAfter (start Params.default 0 [(0, 0x80000000), (1, 0x7FFFFFFF)]) "SBCS R2, R0, R1" 2 =
    some (0, 0b0111, 1) := by decide
/-- A20. -/
theorem test_rsb_most_negative : regAfter (start Params.default 0 [(1, 0x80000000)]) "RSBS R0, R1, #0" 0 =
    some (0x80000000, 0b1001, 1) := by decide
/-- A22. -/
theorem test_rsc_borrow_in : regAfter (start Params.default 0 [(1, 1)]) "RSCS R0, R1, #5" 0 =
    some (3, 0b0010, 1) := by decide
/-- A25. -/
theorem test_mov_clears_c_and_v : regAfter (start Params.default 0b0011 []) "MOVS R0, #0" 0 =
    some (0, 0b0100, 1) := by decide
/-- A28. -/
theorem test_mov_pc_does_not_branch : regAfter (start Params.default 0 []) "MOV PC, #8" 15 =
    some (8, 0, 1) := by decide
/-- A32. -/
theorem test_mvn_zero : regAfter (start Params.default 0b1001 [(1, 0xFFFFFFFF)]) "MVNS R0, R1" 0 =
    some (0, 0b0100, 1) := by decide
/-- S8. -/
theorem test_lsl_no_carry_out : regAfter (start Params.default 0b0010 [(1, 0x80000000)]) "LSLS R0, R1, #1" 0 =
    some (0, 0b0100, 1) := by decide
/-- S4 and S5: an amount of 32 under the two rules. -/
theorem test_lsl_by_32 : regAfter (start Params.default 0 [(1, 1), (2, 32)]) "LSL R0, R1, R2" 0 = some (0, 0, 1) ∧
    regAfter (start masking 0 [(1, 1), (2, 32)]) "LSL R0, R1, R2" 0 = some (1, 0, 1) := by decide
/-- S9. -/
theorem test_lsr_by_31 : regAfter (start Params.default 0 [(1, 0x80000000)]) "LSR R0, R1, #31" 0 =
    some (1, 0, 1) := by decide
/-- S14 and S15. -/
theorem test_asr_by_40 :
    regAfter (start Params.default 0 [(1, 0x80000000), (2, 40)]) "ASR R0, R1, R2" 0 = some (0xFFFFFFFF, 0, 1) ∧
    regAfter (start masking 0 [(1, 0x80000000), (2, 40)]) "ASR R0, R1, R2" 0 = some (0xFF800000, 0, 1) := by decide
/-- S20. -/
theorem test_ror_by_36 : regAfter (start Params.default 0 [(1, 0x12345678), (2, 0x24)]) "ROR R0, R1, R2" 0 =
    some (0x81234567, 0, 1) := by decide
/-- S24. -/
theorem test_rrx_reads_then_clears_c : regAfter (start Params.default 0b0010 [(1, 1)]) "RRXS R0, R1" 0 =
    some (0x80000000, 0b1000, 1) := by decide
/-- K1. -/
theorem test_cmp_less : regAfter (start Params.default 0 [(0, 3)]) "CMP R0, #5" 0 = some (3, 0b1000, 1) := by decide
/-- K10. -/
theorem test_cmn_wrap : regAfter (start Params.default 0 [(0, 0x80000000)]) "CMN R0, R0" 0 =
    some (0x80000000, 0b0111, 1) := by decide
/-- K11. -/
theorem test_tst_clears_c_and_v : regAfter (start Params.default 0b0011 [(0, 2)]) "TST R0, #1" 0 =
    some (2, 0b0100, 1) := by decide
/-- K16. -/
theorem test_teq : regAfter (start Params.default 0b0110 [(0, 0xF0F0F0F0), (1, 0x0F0F0F0F)]) "TEQ R0, R1" 0 =
    some (0xF0F0F0F0, 0b1000, 1) := by decide
/-- M14. -/
theorem test_ldr_reads_no_memory :
    regAfter (setMem (start Params.default 0 [(1, 0x1000)]) (writeWord [] 0x1000 0xDEADBEEF)) "LDR R2, [R1]" 2 =
      some (0x1000, 0, 1) := by decide
/-- M15. -/
theorem test_ldr_loads :
    regAfter (setMem (start loading 0 [(1, 0x1000)]) (writeWord [] 0x1000 0xDEADBEEF)) "LDR R2, [R1]" 2 =
      some (0xDEADBEEF, 0, 1) := by decide
/-- M2. -/
theorem test_str_last_word :
    (after (start Params.default 0 [(0, 0xDEADBEEF), (1, 0x13FC)]) "STR R0, [R1]").map
      (fun t => (readWord t.mem 0x13FC, t.pc)) = some (0xDEADBEEF, 1) := by decide
/-- M6. -/
theorem test_str_alignment_before_range :
    errorAfter (start Params.default 0 [(0, 1), (1, 0x1402)]) "STR R0, [R1]" = some (3, 0, .misaligned 0x1402) := by decide
/-- Section 1.4. -/
theorem test_b_loop : (after (start Params.default 0 []) "loop B loop").map (fun t => (t.pc, stepResult t)) =
    some (0, .continued) := by decide
/-- B3. -/
theorem test_b_unresolved : errorAfter (start Params.default 0 []) "BNE nowhere" =
    some (6, 0, .unresolvedLabel "nowhere".toList) := by decide

/-! ### Errors, conditions, reserved bundles, commands -/

/-- Q3. -/
theorem test_skipped_raises_nothing : regAfter (start Params.default 0 []) "MOVEQ R16, R17" 0 = some (0, 0, 1) := by decide
/-- E1, E2, E13. -/
theorem test_error_priority :
    errorAfter (start Params.default 0 []) "ADD R16, R17, #1" = some (2, 0, .decodeError "R17".toList) ∧
    errorAfter (start Params.default 0 []) "ADD R16, R1, #1" = some (5, 0, .stateModification "R16".toList) ∧
    errorAfter (start Params.default 0 []) "MOV R0, R16, LSL R17" = some (2, 0, .decodeError "R16".toList) := by decide
/-- V9: refused whatever its condition. -/
theorem test_reserved_bundle :
    (match step (load ⟨[⟨0, none, ⟨0x040C, []⟩⟩], []⟩ State.reset) with
      | .next t => some (t.st, t.pc) | .fault _ => none | .refused _ => none) =
      some (.faulted ⟨.reservedOperation 0x040C, 0⟩, 0) := by decide
/-- Log 6: the one stop of the model. -/
theorem test_malformed_bundle :
    (match step (load ⟨[⟨0, none, ⟨0x01C4, []⟩⟩], []⟩ State.reset) with
      | .fault f => some f | .next _ => none | .refused _ => none) = some (.malformedBundle 0x01C4) := by decide
/-- Section 2.1, row 1010. -/
theorem test_condition_row : Cond.all.map (fun c => condHolds c 0xA0000000) =
    [false, true, true, false, true, false, false, true, true, false, false, true, false, true, true, false] := by decide
/-- H2 to H5. -/
theorem test_configurations : ({ Params.default with memWords := 0 }).valid = false ∧
    ({ Params.default with physMemBase := 0x1002 }).valid = false ∧
    ({ Params.default with physMemBase := 0x7FFFFC00 }).valid = true ∧
    ({ Params.default with physMemBase := 0x7FFFFC00, memWords := 257 }).valid = false := by decide

/-! ### Witnesses: for each statement with hypotheses, a state and operands that meet them -/

/-- A program of two operations: `loop ADDS R0, R0, #5` and `B loop`. -/
def demoProgram : Program :=
  { operations :=
      [⟨0, some "loop".toList, encode (.add withS (.reg 0) (.simple (.reg 0)) (.simple (.imm 5)))⟩,
       ⟨1, none, encode (.b noSuffix "loop".toList)⟩]
    labels := [("loop".toList, [0])] }

/-- Its text. -/
def demoText : Text := "loop ADDS R0, R0, #5\nB loop".toList

/-- A state in the middle of it, with loads, memory and flags in use. -/
def demo : State :=
  { regs := (Vector.replicate 16 0).set 1 0x1004, cpsr := 0x20000000, mem := writeWord [] 0x1004 0xDEADBEEF, pc := 1,
    st := .ready, lp := some demoProgram, params := loading }

theorem witness_demo_parses : parseProgram loading.extraConds demoText = .ok demoProgram := by rfl

theorem witness_demo_inv : demo.Inv where
  params := by decide
  memWf := by decide
  window := by decide
  cpsr := by decide
  program := fun p h => by cases h; decide
  cursor := by decide
  status := by decide

theorem witness_DecodeOfLineIsTheInstruction :
    (Instr.add ⟨some .hi, true⟩ (.bad "cpsr".toList) (.simple (.bad "=1".toList))
      (.shift .ror .cpsr (some (.imm 0xFFFFFFFF)))).wellFormed Params.default.extraConds = true ∧
    labelOk (some "x1".toList) = true := by decide
theorem witness_DecodedLinesAreWellFormed :
    (∀ c ∈ "x LDR R1, =7".toList, c ≠ ';' ∧ c ≠ '\n') ∧
    parseLine Params.default.extraConds "x LDR R1, =7".toList =
      .ok (some "x".toList, .ldr noSuffix (.reg 1) (.simple (.bad "=7".toList))) := by
  exact ⟨by simp, rfl⟩
theorem witness_OpwordHasOneReading :
    readOpword Params.default.extraConds "BLSS".toList .b = some (.b, ⟨some .ls, true⟩) := by decide
theorem witness_OperandCountsAreEnforced :
    [Operand.simple .cpsr].length = Mnemonic.mov.operandCount ∧ [Operand.simple .cpsr].length ≠ Mnemonic.add.operandCount := by
  decide
theorem witness_FirstFailingLineIsReported :
    parseProgram Params.default.extraConds "B x\nB".toList = .error ⟨1, "B".toList, .grammar⟩ := by rfl
theorem witness_LabelTableListsEveryIndex :
    ∀ l ∈ filterLines demoText, ∃ r, parseLine Params.default.extraConds l = .ok r := by
  intro l hl
  have : filterLines demoText = ["loop ADDS R0, R0, #5".toList, "B loop".toList] := by decide
  simp only [this, List.mem_cons, List.not_mem_nil, or_false] at hl
  rcases hl with rfl | rfl
  · exact ⟨_, rfl⟩
  · exact ⟨_, rfl⟩
theorem witness_CreationAndResetZeroEveryRegister : cmdCreate loading = some (State.initial loading) := by decide
theorem witness_CreateRefusesInvalidConfigurations :
    (1 ≤ loading.memWords ∧ loading.physMemBase % 4 = 0 ∧ loading.physMemBase + 4 * loading.memWords ≤ 2 ^ 31) ∧
    ¬(1 ≤ 257 ∧ 0x7FFFFC00 % 4 = 0 ∧ 0x7FFFFC00 + 4 * 257 ≤ 2 ^ 31) := by decide
theorem witness_ConfigurationNeverChanges :
    runCommand 3 (.run ⟨[], []⟩) demo = some (haltStep (load ⟨[], []⟩ demo)) ∧
    step demo = .next { demo with pc := 0 } := by
  exact ⟨by decide, rfl⟩
theorem witness_SnapshotsShowRegistersAndMemory : 255 < demo.params.memWords := by decide
theorem witness_StepCommandKeepsTheCursor :
    demo.lp = some demoProgram ∧ demo.lp ≠ some ⟨[], []⟩ ∧ cmdStep demoProgram demo = .next { demo with pc := 0 } := by
  exact ⟨rfl, by decide, rfl⟩
theorem witness_RunDoneIsContinuedStepsThenHalted :
    RunsDone 1 ⟨[], []⟩ demo (haltStep (load ⟨[], []⟩ demo)) := rfl
theorem witness_EveryStepKeepsTheInvariant : demo.Inv ∧ step demo = .next { demo with pc := 0 } :=
  ⟨witness_demo_inv, rfl⟩
theorem witness_EveryCommandKeepsTheInvariant :
    demo.Inv ∧ parseProgram loading.extraConds [] = .ok ⟨[], []⟩ ∧
    runCommand 1 .reset demo = some (cmdReset demo) ∧ runCommand 1 .snapshot demo = some demo ∧
    runCommand 1 (.load ⟨[], []⟩) demo = some (load ⟨[], []⟩ demo) ∧
    runCommand 1 (.run ⟨[], []⟩) demo = some (haltStep (load ⟨[], []⟩ demo)) ∧
    runCommand 1 (.step ⟨[], []⟩) demo = some (haltStep (load ⟨[], []⟩ demo)) :=
  ⟨witness_demo_inv, rfl, rfl, rfl, rfl, rfl, rfl⟩
theorem witness_StepsOfBuiltProgramsNeverStop :
    parseProgram loading.extraConds demoText = .ok demoProgram ∧ demo.lp = some demoProgram := ⟨rfl, rfl⟩
theorem witness_StepRunsTheDecodedInstruction :
    demo.lp = some demoProgram ∧
    demoProgram.operations[demo.pc]? = some ⟨1, none, encode (.b noSuffix "loop".toList)⟩ ∧
    decodeBundle (encode (.b noSuffix "loop".toList)) = .ok (.b noSuffix "loop".toList) := ⟨rfl, rfl, rfl⟩
theorem witness_TerminalStepOnlyHalts :
    (load ⟨[], []⟩ demo).lp = some ⟨[], []⟩ ∧ ([] : List Operation).length ≤ (load ⟨[], []⟩ demo).pc := by decide
theorem witness_ReservedBundleIsRefusedAtFetch :
    (load ⟨[⟨0, none, ⟨0x0800, []⟩⟩], []⟩ demo).lp = some ⟨[⟨0, none, ⟨0x0800, []⟩⟩], []⟩ ∧
    decodeHeader 0x0800 = none ∧ decodeHeader 0x000C = none ∧ decodeHeader 0x0018 = none := by decide
theorem witness_SkippedOperationOnlyAdvances : suffixHolds ⟨some .eq, true⟩ demo.cpsr = false := by decide
/-- `demo` runs into the undefined label `nowhere`. -/
def failing : State := load ⟨[⟨0, none, encode (.b noSuffix "nowhere".toList)⟩], []⟩ demo
theorem witness_ErrorsChangeOnlyTheStatusAndRepeat :
    failing.lp ≠ none ∧
    step failing = .next { failing with st := .faulted ⟨.unresolvedLabel "nowhere".toList, 0⟩ } :=
  ⟨by decide, rfl⟩
theorem witness_StatusDoesNotSteerTheEngine : demo.lp ≠ none := by decide
theorem witness_MemoryIsUnreadableWithoutIndirectLoads :
    ({ demo with params := Params.default }).params.memIndirectLoads = false ∧
    step { demo with params := Params.default } = .next { demo with params := Params.default, pc := 0 } := ⟨rfl, rfl⟩
theorem witness_OperandsResolve :
    resolve demo (.simple .cpsr) = .ok 0x20000000 ∧ resolve demo (.simple (.imm 3)) = .ok 3 := ⟨rfl, rfl⟩
theorem witness_ResolutionFailsExactlyOnBadTokens :
    Operand.firstBad (.shift .lsl (.reg 0) (some (.bad "x".toList))) = some "x".toList ∧
    Operand.firstBad (.shift .rrx .cpsr none) = none := by decide
theorem witness_AmountRulesAgree : (31 : Word).toNat < 32 ∧ (ShiftKind.ror = .ror ∨ ShiftKind.ror = .rrx) := by decide
/-- The hypotheses of AddRule, AdcCompletes, SubRule, SbcCompletes, RsbAndRscComplete, LslAndLsrComplete, AsrAndRorComplete,
CmpRule, CmnTstAndTeqComplete and ConditionsAfterCompare, with C set and the condition CS. -/
theorem witness_two_sources_resolve :
    suffixHolds ⟨some .cs, true⟩ demo.cpsr = true ∧ resolve demo (.simple (.reg 1)) = .ok 0x1004 ∧
    resolve demo (.shift .lsr (.reg 1) (some (.imm 2))) = .ok 0x401 := by
  exact ⟨by decide, rfl, rfl⟩
/-- The amounts of LslAndLsrComplete and AsrAndRorComplete, at 255 and 31, the tops of their ranges. -/
theorem witness_amounts :
    resolve demo (.simple (.imm 0xFFFF)) = .ok 0xFFFF ∧
    255 = (if demo.params.shiftAmountRule = .armReg then (0xFFFF : Word).toNat % 256 else (0xFFFF : Word).toNat % 32) ∧
    31 = (if masking.shiftAmountRule = .armReg then (0xFFFF : Word).toNat % 256 else (0xFFFF : Word).toNat % 32) := by
  exact ⟨rfl, by decide, by decide⟩
/-- The error clauses of AddRule, SubRule, MovRule, CmpRule and OperandErrorsComeFirst. -/
theorem witness_bad_sources :
    suffixHolds noSuffix demo.cpsr = true ∧ Operand.firstBad (.simple (.bad "5".toList)) = some "5".toList ∧
    Operand.firstBad (.simple (.reg 1)) = none ∧
    (Instr.sub withS (.bad "SP".toList) (.simple (.reg 1)) (.simple (.bad "5".toList))).sources =
      [.simple (.reg 1), .simple (.bad "5".toList)] := by decide
/-- The target clause: LDR that loads from the last word of the window, and LDR of another source, loads enabled. -/
theorem witness_OperandErrorsComeFirst_target :
    (Instr.ldr withS (.bad "SP".toList) (.simple (.memInd 1))).target = some (.bad "SP".toList) ∧
    (∀ x ∈ (Instr.ldr withS (.bad "SP".toList) (.simple (.memInd 1))).sources, Operand.firstBad x = none) ∧
    (writeReg demo 1 0x13FC).params.memIndirectLoads = true ∧
    ((readReg (writeReg demo 1 0x13FC) 1).toNat % 4 = 0 ∧
      (writeReg demo 1 0x13FC).params.physMemBase ≤ (readReg (writeReg demo 1 0x13FC) 1).toNat ∧
      (readReg (writeReg demo 1 0x13FC) 1).toNat <
        (writeReg demo 1 0x13FC).params.physMemBase + 4 * (writeReg demo 1 0x13FC).params.memWords) ∧
    (∀ f rd n, Instr.ldr withS (.bad "SP".toList) (.simple (.reg 1)) ≠ .ldr f rd (.simple (.memInd n))) :=
  ⟨rfl, by decide, rfl, by decide, fun _ _ _ h => by simp at h⟩
/-- The hypotheses of MvnCompletes, RrxCompletes and MovRule. -/
theorem witness_one_source_resolves :
    suffixHolds withS demo.cpsr = true ∧ resolve demo (.shift .rrx (.reg 1) none) = .ok 0x80000802 := by
  exact ⟨by decide, rfl⟩
theorem witness_AddsThenAdcAddsSixtyFourBits :
    (4 : RegNum) ≠ 1 ∧ (4 : RegNum) ≠ 3 ∧ (4 : RegNum) ≠ 5 := by decide
theorem witness_AcceptedAddressesAreTheWindowWords :
    loading.valid = true ∧ 0x1001 % 4 ≠ 0 ∧ 0x1400 % 4 = 0 ∧ loading.physMemBase + 4 * loading.memWords ≤ 0x1400 ∧
    0xFFC % 4 = 0 ∧ 0xFFC < loading.physMemBase ∧ (255 < loading.memWords ∧ 0x13FC = loading.physMemBase + 4 * 255) := by
  decide
theorem witness_MemReadAfterMemWrite :
    memWrite demo 0x13FC 7 = .ok (setMem demo (writeWord demo.mem 0x13FC 7)) ∧ 0x1004 ≠ 0x13FC ∧ 0x1004 % 4 = 0 ∧
    demo.mem.wf = true := by
  exact ⟨rfl, by decide, by decide, by decide⟩
theorem witness_LdrCompletes :
    suffixHolds withS demo.cpsr = true ∧ (∀ n, Operand.simple (.reg 1) ≠ .simple (.memInd n)) ∧
    resolve demo (.simple (.reg 1)) = .ok 0x1004 ∧ demo.params.memIndirectLoads = true ∧ 1 < demo.params.memWords ∧
    demo.params.physMemBase % 4 = 0 ∧ (readReg demo 1).toNat = demo.params.physMemBase + 4 * 1 := by
  exact ⟨by decide, by decide, rfl, by decide, by decide, by decide, by decide⟩
theorem witness_StrCompletes :
    suffixHolds withS demo.cpsr = true ∧ resolve demo (.simple .cpsr) = .ok 0x20000000 ∧
    resolve demo (.simple (.imm 0x13FC)) = .ok 0x13FC ∧ demo.params.physMemBase % 4 = 0 ∧
    255 < demo.params.memWords ∧ (0x13FC : Word).toNat = demo.params.physMemBase + 4 * 255 := by
  exact ⟨by decide, rfl, rfl, by decide, by decide, by decide⟩
theorem witness_StoreThenLoadRoundTrips :
    demo.params.memIndirectLoads = true ∧ demo.params.physMemBase % 4 = 0 ∧ 1 < demo.params.memWords ∧
    (readReg demo 1).toNat = demo.params.physMemBase + 4 * 1 := by decide
theorem witness_MisalignedAccessesRaise :
    suffixHolds withS demo.cpsr = true ∧ resolve demo (.simple (.imm 0x1001)) = .ok 0x1001 ∧
    (0x1001 : Word).toNat % 4 ≠ 0 ∧
    (readReg (writeReg demo 1 0x1002) 1).toNat % 4 ≠ 0 ∧ (writeReg demo 1 0x1002).params.memIndirectLoads = true ∧
    exec (.str withS (.simple .cpsr) (.simple (.imm 0x1001))) demo =
      .next { demo with st := .faulted ⟨.misaligned 0x1001, 1⟩ } ∧
    exec (.ldr withS (.reg 0) (.simple (.memInd 1))) (writeReg demo 1 0x1002) =
      .next { writeReg demo 1 0x1002 with st := .faulted ⟨.misaligned 0x1002, 1⟩ } := by
  exact ⟨by decide, rfl, by decide, by decide, by decide, rfl, rfl⟩
theorem witness_OutOfWindowAccessesRaise :
    suffixHolds withS demo.cpsr = true ∧ resolve demo (.simple (.imm 0x1400)) = .ok 0x1400 ∧
    (0x1400 : Word).toNat % 4 = 0 ∧ demo.params.physMemBase + 4 * demo.params.memWords ≤ (0x1400 : Word).toNat ∧
    (readReg (writeReg demo 1 0xFFC) 1).toNat % 4 = 0 ∧
    (readReg (writeReg demo 1 0xFFC) 1).toNat < demo.params.physMemBase ∧
    exec (.str withS (.simple .cpsr) (.simple (.imm 0x1400))) demo =
      .next { demo with st := .faulted ⟨.outOfWindow 0x1400, 1⟩ } ∧
    exec (.ldr withS (.reg 0) (.simple (.memInd 1))) (writeReg demo 1 0xFFC) =
      .next { writeReg demo 1 0xFFC with st := .faulted ⟨.outOfWindow 0xFFC, 1⟩ } := by
  exact ⟨by decide, rfl, by decide, by decide, by decide, by decide, rfl, rfl⟩
/-- `demo` with a label carried twice. -/
def ambiguous : State := load ⟨demoProgram.operations, [("x".toList, [0, 1])]⟩ demo
theorem witness_BranchGoesToItsOnlyLabel :
    suffixHolds noSuffix demo.cpsr = true ∧ labelIndices (progLabels demo) "loop".toList = [0] ∧
    Program.wf demoProgram = true ∧ demo.lp = some demoProgram ∧
    labelIndices (progLabels ambiguous) "x".toList = [0, 1] := by decide
theorem witness_UnresolvedLabelRaisesWhenTaken :
    suffixHolds noSuffix demo.cpsr = true ∧ (∀ ks, ("Loop".toList, ks) ∉ progLabels demo) := by
  refine ⟨by decide, fun ks h => ?_⟩
  simp [progLabels, demo, demoProgram] at h
theorem witness_RegisterUpdateFrame :
    (Instr.mov noSuffix (.reg 2) (.simple (.reg 1))).mnemonic.shape = .registerUpdate ∧
    exec (.mov noSuffix (.reg 2) (.simple (.reg 1))) demo = .next (complete (advance (writeReg demo 2 0x1004))) :=
  ⟨rfl, rfl⟩
theorem witness_CompareFrame :
    (Instr.tst noSuffix (.simple (.reg 1)) (.simple (.imm 4))).mnemonic.shape = .compareOnly ∧
    exec (.tst noSuffix (.simple (.reg 1)) (.simple (.imm 4))) demo = .next (complete (advance (setCpsr demo 0))) :=
  ⟨rfl, rfl⟩
theorem witness_StoreAndBranchFrames :
    exec (.str noSuffix (.simple (.imm 7)) (.simple (.imm 0x1000))) demo =
      .next (complete (advance (setMem demo (writeWord demo.mem 0x1000 7)))) ∧
    resolve demo (.simple (.imm 0x1000)) = .ok 0x1000 ∧
    resolve demo (.simple (.bad "q".toList)) = .error (.decodeError "q".toList) ∧
    exec (.b noSuffix "loop".toList) demo = .next { demo with pc := 0 } := ⟨rfl, rfl, rfl, rfl⟩

end Sys2Proof.Tests
end

section
/-!
PROOFS. The state after creation and after reset, and the snapshots of it (spec/10_state.md).
-/
namespace Sys2Proof.Machine

/-! ### Creation and reset -/

/-- CREATE answers the initial state of a valid configuration, and nothing else (spec/70_reset_and_hazards.md R280). -/
theorem cmdCreate_eq_some_iff {p : Params} {s : State} :
    cmdCreate p = some s ↔ p.valid = true ∧ State.initial p = s := by
  simp [cmdCreate]

/-- RESET is the creation of the same configuration anew (spec/70_reset_and_hazards.md R281). -/
theorem cmdReset_eq_initial (s : State) : cmdReset s = State.initial s.params := rfl

@[simp] theorem readReg_initial (p : Params) (r : RegNum) : readReg (State.initial p) r = 0 := by
  simp [readReg]

@[simp] theorem readReg_cmdReset (s : State) (r : RegNum) : readReg (cmdReset s) r = 0 := by
  rw [cmdReset_eq_initial, readReg_initial]

/-- Settles O11: a created engine, a reset one and `State.reset` are all initial states. -/
theorem creationAndResetZeroEveryRegister : Obligations.CreationAndResetZeroEveryRegister := by
  refine ⟨fun p s h r => ?_, readReg_cmdReset, readReg_initial _⟩
  obtain ⟨-, rfl⟩ := cmdCreate_eq_some_iff.mp h
  exact readReg_initial p r

/-! ### Snapshots -/

@[simp] theorem length_snapshotRegisters (s : State) : (snapshotRegisters s).length = 17 := by
  simp [snapshotRegisters]

theorem snapshotRegisters_getElem?_reg (s : State) (r : RegNum) :
    (snapshotRegisters s)[r.val]? = some ('R' :: regDigits r, readReg s r) := by
  have hr : r.val < ((List.finRange 16).map fun i => ('R' :: regDigits i, readReg s i)).length := by simp
  rw [snapshotRegisters, List.getElem?_append_left hr]
  simp

theorem snapshotRegisters_getElem?_cpsr (s : State) :
    (snapshotRegisters s)[16]? = some ("cpsr".toList, s.cpsr) := by
  rw [snapshotRegisters, List.getElem?_append_right (by simp)]
  simp

@[simp] theorem length_snapshotMemory (s : State) : (snapshotMemory s).length = s.params.memWords := by
  simp [snapshotMemory]

theorem snapshotMemory_getElem? (s : State) {k : Nat} (hk : k < s.params.memWords) :
    (snapshotMemory s)[k]? = some (readWord s.mem (wordAddr s.params k)) := by
  simp [snapshotMemory, hk]

theorem runCommand_snapshot (fuel : Nat) (s : State) : runCommand fuel .snapshot s = some s := rfl

/-- Settles O15: the register pairs, the CPSR pair after them and the memory words, each by its index. -/
theorem snapshotsShowRegistersAndMemory : Obligations.SnapshotsShowRegistersAndMemory := fun s =>
  ⟨length_snapshotRegisters s, snapshotRegisters_getElem?_reg s, snapshotRegisters_getElem?_cpsr s,
    length_snapshotMemory s, fun _ hk => snapshotMemory_getElem? s hk, fun fuel => runCommand_snapshot fuel s⟩

end Sys2Proof.Machine
end

section
/-!
PROOFS. The address check in front of every memory access (spec/20_memory.md section 2).
-/
namespace Sys2Proof.Machine

/-- The constraints of spec/00_scope.md R7 as propositions. -/
theorem params_valid_iff {p : Params} :
    p.valid = true ↔ 1 ≤ p.memWords ∧ p.physMemBase % 4 = 0 ∧ p.physMemBase + 4 * p.memWords ≤ 2 ^ 31 := by
  simp [Params.valid, and_assoc]

theorem wordIndex_misaligned (p : Params) {a : Nat} (ha : a % 4 ≠ 0) :
    wordIndex p a = .error (.misaligned a) := by
  rw [wordIndex_eq, if_pos ha]

theorem wordIndex_outOfWindow (p : Params) {a : Nat} (ha : a % 4 = 0)
    (hw : a < p.physMemBase ∨ p.physMemBase + 4 * p.memWords ≤ a) :
    wordIndex p a = .error (.outOfWindow a) := by
  rw [wordIndex_eq, if_neg (not_not.mpr ha), if_pos hw]

/-- Over an aligned base the check accepts the address of word `k`, with index `k`, for each `k` of the window, and
no other address: the three cases are those in which the check can end. -/
theorem wordIndex_eq_ok_iff {p : Params} (hbase : p.physMemBase % 4 = 0) {a k : Nat} :
    wordIndex p a = .ok k ↔ k < p.memWords ∧ a = wordAddr p k := by
  unfold wordAddr
  by_cases ha : a % 4 = 0
  · by_cases hw : a < p.physMemBase ∨ p.physMemBase + 4 * p.memWords ≤ a
    · simp only [wordIndex_outOfWindow p ha hw, reduceCtorEq, false_iff]
      omega
    · rw [wordIndex_window p ha (by omega) (by omega), Except.ok.injEq]
      omega
  · simp only [wordIndex_misaligned p ha, reduceCtorEq, false_iff]
    omega

/-- Settles O48: the two errors in the order of the checks, then the addresses that pass both. -/
theorem acceptedAddressesAreTheWindowWords : Obligations.AcceptedAddressesAreTheWindowWords := by
  intro p a hp
  obtain ⟨-, hbase, -⟩ := params_valid_iff.mp hp
  exact ⟨wordIndex_misaligned p, wordIndex_outOfWindow p, fun _ => wordIndex_eq_ok_iff hbase⟩

end Sys2Proof.Machine
end

section
/-!
PROOFS. The answers of the Operand Resolver (spec/40_engine_and_operands.md section 2).
-/
namespace Sys2Proof.Machine

/-! ### One equation per operand class -/

@[simp] theorem resolve_simple (s : State) (o : Simple) : resolve s (.simple o) = resolveSimple s o := rfl

@[simp] theorem resolveSimple_reg (s : State) (r : RegNum) : resolveSimple s (.reg r) = .ok (readReg s r) := rfl
@[simp] theorem resolveSimple_cpsr (s : State) : resolveSimple s .cpsr = .ok s.cpsr := rfl
@[simp] theorem resolveSimple_imm (s : State) (v : Word) : resolveSimple s (.imm v) = .ok v := rfl
@[simp] theorem resolveSimple_memInd (s : State) (r : RegNum) : resolveSimple s (.memInd r) = .ok (readReg s r) := rfl
@[simp] theorem resolveSimple_bad (s : State) (t : Text) : resolveSimple s (.bad t) = .error (.decodeError t) := rfl

@[simp] theorem resolveAmount_none (s : State) : resolveAmount s none = .ok 0 := rfl
@[simp] theorem resolveAmount_some (s : State) (a : Simple) : resolveAmount s (some a) = resolveSimple s a := rfl

/-- A shift operand whose value and amount resolve is the shift function of both and the C flag (R135). -/
theorem resolve_shift_of_ok {s : State} (k : ShiftKind) {b : Simple} {a : Option Simple} {vb va : Word}
    (hb : resolveSimple s b = .ok vb) (ha : resolveAmount s a = .ok va) :
    resolve s (.shift k b a) = .ok (shiftFn s.params.shiftAmountRule k vb va (flagC s.cpsr)) := by
  simp only [resolve, hb, ha]

/-- No operand's value depends on the cursor, that of R15 included (R131). -/
@[simp] theorem resolve_jumpTo (s : State) (k : Nat) (o : Operand) : resolve (jumpTo s k) o = resolve s o :=
  resolve_congr (jumpTo_regs s k) (jumpTo_cpsr s k) (jumpTo_params s k) o

/-! ### A line with a Bad token -/

/-- `R0,` begins no opword, so the line has no reading with `MOV` as its label (R74). -/
theorem readLine_movBadToken (ex : ExtraConds) :
    readLine ex "MOV R0, R16".toList = some (none, (.mov, ⟨none, false⟩), ["R0".toList, "R16".toList]) := rfl

/-- A line with a Bad source token decodes, under any extra spellings (R136). -/
theorem parseLine_movBadToken (ex : ExtraConds) :
    parseLine ex "MOV R0, R16".toList =
      .ok (none, .mov ⟨none, false⟩ (.reg 0) (.simple (.bad "R16".toList))) := by
  rw [parseLine, readLine_movBadToken]
  rfl

/-- Settles O29: the equation of each operand class, and for a shift the two ways its amount resolves. -/
theorem operandsResolve : Obligations.OperandsResolve := fun s =>
  ⟨resolveSimple_reg s, fun k r => resolve_jumpTo s k (.simple (.reg r)), resolveSimple_imm s, resolveSimple_bad s,
    parseLine_movBadToken, fun k _ _ hb =>
      ⟨resolve_shift_of_ok k hb (resolveAmount_none s), fun _ _ ha => resolve_shift_of_ok k hb ha⟩⟩

end Sys2Proof.Machine
end

section
/-!
PROOFS. How resolution and the computations on resolved sources fail (spec/40_engine_and_operands.md section 2).
-/
namespace Sys2Proof.Machine

/-! ### An operand with a Bad token -/

theorem resolveSimple_of_badToken (s : State) {o : Simple} {tok : Text} (h : Simple.badToken o = some tok) :
    resolveSimple s o = .error (.decodeError tok) := by
  cases o with
  | bad t =>
    obtain rfl : t = tok := Option.some.inj h
    exact resolveSimple_bad s t
  | reg | cpsr | imm | memInd => cases h

theorem exists_resolveSimple_eq_ok (s : State) {o : Simple} (h : Simple.badToken o = none) :
    ∃ v, resolveSimple s o = .ok v := by
  cases o with
  | bad t => cases h
  | reg | cpsr | imm | memInd => exact ⟨_, rfl⟩

/-- The first Bad token in the order of resolution is the one an operand fails with (R137). -/
theorem resolve_of_firstBad (s : State) {o : Operand} {tok : Text} (h : Operand.firstBad o = some tok) :
    resolve s o = .error (.decodeError tok) := by
  cases o with
  | simple o => exact resolveSimple_of_badToken s h
  | shift k b a =>
    cases hb : Simple.badToken b with
    | some t =>
      obtain rfl : t = tok := by simpa [Operand.firstBad, hb] using h
      simp only [resolve, resolveSimple_of_badToken s hb]
    | none =>
      obtain ⟨vb, hvb⟩ := exists_resolveSimple_eq_ok s hb
      obtain ⟨a, rfl, ha⟩ : ∃ a', a = some a' ∧ Simple.badToken a' = some tok := by
        simpa [Operand.firstBad, hb, Option.bind_eq_some_iff] using h
      simp only [resolve, hvb, resolveAmount_some, resolveSimple_of_badToken s ha]

theorem exists_resolve_eq_ok (s : State) {o : Operand} (h : Operand.firstBad o = none) :
    ∃ v, resolve s o = .ok v := by
  cases o with
  | simple o => exact exists_resolveSimple_eq_ok s h
  | shift k b a =>
    cases hb : Simple.badToken b with
    | some t => simp [Operand.firstBad, hb] at h
    | none =>
      obtain ⟨vb, hvb⟩ := exists_resolveSimple_eq_ok s hb
      cases a with
      | none => exact ⟨_, resolve_shift_of_ok k hvb (resolveAmount_none s)⟩
      | some a =>
        obtain ⟨va, hva⟩ := exists_resolveSimple_eq_ok s (o := a) (by simpa [Operand.firstBad, hb] using h)
        exact ⟨_, resolve_shift_of_ok k hvb hva⟩

/-! ### Computations on one source and on two -/

theorem computeOne_of_ok {s : State} {x : Operand} {a : Word} (hx : resolve s x = .ok a) (g : Word → Bool → Word) :
    computeOne x g s = .ok (Raw.ofRes (g a (flagC s.cpsr))) := by
  simp only [computeOne, hx]

theorem computeOne_of_firstBad (s : State) {x : Operand} {tok : Text} (hx : Operand.firstBad x = some tok)
    (g : Word → Bool → Word) : computeOne x g s = .error (.decodeError tok) := by
  simp only [computeOne, resolve_of_firstBad s hx]

theorem computeTwo_of_ok {s : State} {x y : Operand} {a b : Word} (hx : resolve s x = .ok a)
    (hy : resolve s y = .ok b) (g : Word → Word → Bool → Raw) :
    computeTwo x y g s = .ok (g a b (flagC s.cpsr)) := by
  simp only [computeTwo, resolveTwo_ok.mpr ⟨hx, hy⟩]

theorem computeTwo_of_firstBad_left (s : State) {x : Operand} {tok : Text} (hx : Operand.firstBad x = some tok)
    (y : Operand) (g : Word → Word → Bool → Raw) : computeTwo x y g s = .error (.decodeError tok) := by
  simp only [computeTwo, resolveTwo, resolve_of_firstBad s hx]

theorem computeTwo_of_firstBad_right (s : State) {x y : Operand} {tok : Text} (hx : Operand.firstBad x = none)
    (hy : Operand.firstBad y = some tok) (g : Word → Word → Bool → Raw) :
    computeTwo x y g s = .error (.decodeError tok) := by
  obtain ⟨a, ha⟩ := exists_resolve_eq_ok s hx
  simp only [computeTwo, resolveTwo, ha, resolve_of_firstBad s hy]

end Sys2Proof.Machine
end

section
/-!
PROOFS. The Register-update shape under a condition that holds: the two ways it fails and what it leaves when it
completes (spec/40_engine_and_operands.md R124, R128, R129).
-/
namespace Sys2Proof.Machine

/-! ### The writes -/

/-- The length of the loaded program depends on the program store only. -/
theorem progLength_congr {s t : State} (h : t.lp = s.lp) : progLength t = progLength s := by
  simp only [progLength, h]

/-- The result goes to the target register and nothing else but CPSR, the cursor and the status is written. -/
theorem wroteReg_complete_regUpdated (mode : FlagMode) (setS : Bool) (s : State) (d : RegNum) (r : Raw) :
    WroteReg s (complete (regUpdated mode setS s d r)) d r.res := by
  have hread (q : RegNum) :
      readReg (complete (regUpdated mode setS s d r)) q = if q = d then r.res else readReg s q := by
    rw [← readReg_writeReg]
    exact readReg_congr (by simp) q
  exact
    { value := by simp [hread]
      others := fun q hq => by simp [hread, hq]
      mem := by simp
      next := { pc := by simp, st := by simp [progLength_congr (regUpdated_lp ..)], lp := by simp, params := by simp } }

theorem flagsSet_setFlags (mode : FlagMode) (r : Raw) (w : Word) :
    FlagsSet w (setFlags mode r w) (r.res.getLsbD 31) (decide (r.res = 0)) (newC mode r.u) (newV mode r.s) :=
  ⟨flagN_setFlags .., flagZ_setFlags .., flagC_setFlags .., flagV_setFlags .., rest_setFlags ..⟩

theorem flagsIf_complete_regUpdated (mode : FlagMode) (setS : Bool) (s : State) (d : RegNum) (r : Raw) :
    FlagsIf setS s.cpsr (complete (regUpdated mode setS s d r)).cpsr (r.res.getLsbD 31) (decide (r.res = 0))
      (newC mode r.u) (newV mode r.s) := by
  refine ⟨?_, ?_⟩ <;> rintro rfl
  · simp
  · simpa using flagsSet_setFlags mode r s.cpsr

/-! ### The operation -/

variable {f : Suffix} {mode : FlagMode} {compute : State → Except RunError Raw} {s : State}

/-- A failed computation raises its error, whatever the target (R129, R260). -/
theorem regUpdate_of_compute_error {e : RunError} (hc : suffixHolds f s.cpsr = true) (he : compute s = .error e)
    (setS : Bool) (rd : Target) :
    runOperation f (regUpdateBody mode setS rd compute) s = .next (takeError s e) :=
  runOperation_error hc (by simp only [regUpdateBody, he])

/-- A Bad target raises its error once the computation has succeeded (R146, R260). -/
theorem regUpdate_of_bad_target {r : Raw} (hc : suffixHolds f s.cpsr = true) (hr : compute s = .ok r)
    (setS : Bool) (tok : Text) :
    runOperation f (regUpdateBody mode setS (.bad tok) compute) s = .next (takeError s (.stateModification tok)) :=
  runOperation_error hc (by simp only [regUpdateBody, hr, targetIndex])

/-- A Register-update operation with a register target completes with the result and flags of its computation. -/
theorem regUpdate_completes {r : Raw} (hc : suffixHolds f s.cpsr = true) (hr : compute s = .ok r)
    (setS : Bool) (d : RegNum) :
    ∃ t, runOperation f (regUpdateBody mode setS (.reg d) compute) s = .next t ∧ WroteReg s t d r.res ∧
      FlagsIf setS s.cpsr t.cpsr (r.res.getLsbD 31) (decide (r.res = 0)) (newC mode r.u) (newV mode r.s) :=
  ⟨_, runOperation_ok hc (regUpdateBody_ok.mpr ⟨r, d, hr, rfl, rfl⟩), wroteReg_complete_regUpdated ..,
    flagsIf_complete_regUpdated ..⟩

end Sys2Proof.Machine
end

section
/-!
PROOFS. ADD, SUB and MOV (spec/42_arithmetic_move.md), over the flags of the raw sum and difference
(spec/41_conditions_and_flags.md R153 to R156).
-/
namespace Sys2Proof.Machine

/-! ### The flags of the raw arithmetic -/

theorem newC_addRaw (x y : Word) (c : Bool) :
    newC .add (addRaw x y c).u = decide (2 ^ 32 ≤ x.toNat + y.toNat + c.toNat) :=
  decide_eq_decide.mpr (by simp only [addRaw]; omega)

/-- C after a subtraction says that no borrow occurs (R155). -/
theorem newC_subRaw (x y : Word) (b : Bool) :
    newC .sub (subRaw x y b).u = decide (y.toNat + b.toNat ≤ x.toNat) :=
  decide_eq_decide.mpr (by simp only [subRaw]; omega)

theorem newV_add_eq_overflows (z : Int) : newV .add z = overflows z := by
  simp only [newV, overflows, Int.sub_one_lt_iff]

theorem newV_sub_eq_overflows (z : Int) : newV .sub z = overflows z := newV_add_eq_overflows z

/-! ### ADD without carry and SUB without borrow -/

theorem addFn_res (a b : Word) (c : Bool) : (addFn a b c).res = a + b := by
  simp [addFn, addRaw_res]

theorem newC_addFn (a b : Word) (c : Bool) :
    newC .add (addFn a b c).u = decide (2 ^ 32 ≤ a.toNat + b.toNat) := newC_addRaw a b false

theorem newV_addFn (a b : Word) (c : Bool) : newV .add (addFn a b c).s = overflows (a.toInt + b.toInt) := by
  simp [newV_add_eq_overflows, addFn, addRaw]

theorem subFn_res (a b : Word) (c : Bool) : (subFn a b c).res = a - b := by
  simp [subFn, subRaw_res]

theorem newC_subFn (a b : Word) (c : Bool) :
    newC .sub (subFn a b c).u = decide (b.toNat ≤ a.toNat) := newC_subRaw a b false

theorem newV_subFn (a b : Word) (c : Bool) : newV .sub (subFn a b c).s = overflows (a.toInt - b.toInt) := by
  simp [newV_sub_eq_overflows, subFn, subRaw]

theorem exec_add_completes {f : Suffix} {x y : Operand} {s : State} {a b : Word} (hc : suffixHolds f s.cpsr = true)
    (hx : resolve s x = .ok a) (hy : resolve s y = .ok b) (d : RegNum) :
    ∃ t, exec (.add f (.reg d) x y) s = .next t ∧ WroteReg s t d (a + b) ∧
      FlagsIf f.s s.cpsr t.cpsr ((a + b).getLsbD 31) (decide (a + b = 0)) (decide (2 ^ 32 ≤ a.toNat + b.toNat))
        (overflows (a.toInt + b.toInt)) := by
  have h := regUpdate_completes (mode := .add) hc (computeTwo_of_ok hx hy addFn) f.s d
  rwa [addFn_res, newC_addFn, newV_addFn] at h

/-- Z after a subtraction is equality of the operands. -/
theorem exec_sub_completes {f : Suffix} {x y : Operand} {s : State} {a b : Word} (hc : suffixHolds f s.cpsr = true)
    (hx : resolve s x = .ok a) (hy : resolve s y = .ok b) (d : RegNum) :
    ∃ t, exec (.sub f (.reg d) x y) s = .next t ∧ WroteReg s t d (a - b) ∧
      FlagsIf f.s s.cpsr t.cpsr ((a - b).getLsbD 31) (decide (a = b)) (decide (b.toNat ≤ a.toNat))
        (overflows (a.toInt - b.toInt)) := by
  have h := regUpdate_completes (mode := .sub) hc (computeTwo_of_ok hx hy subFn) f.s d
  have hz : decide (a - b = 0) = decide (a = b) := decide_eq_decide.mpr sub_eq_zero
  rwa [subFn_res, newC_subFn, newV_subFn, hz] at h

/-- MOV's C and V are 0: its mode is SHIFT (R155, R156). -/
theorem exec_mov_completes {f : Suffix} {x : Operand} {s : State} {a : Word} (hc : suffixHolds f s.cpsr = true)
    (hx : resolve s x = .ok a) (d : RegNum) :
    ∃ t, exec (.mov f (.reg d) x) s = .next t ∧ WroteReg s t d a ∧
      FlagsIf f.s s.cpsr t.cpsr (a.getLsbD 31) (decide (a = 0)) false false :=
  regUpdate_completes (mode := .shift) hc (computeOne_of_ok hx fun a _ => a) f.s d

/-! ### The rules -/

/-- Settles O34: the op code from the header's fields, the errors and the completion from the Register-update shape. -/
theorem addRule : Obligations.AddRule := fun f _ y s =>
  ⟨fun _ => ⟨headerOp_encodeHeader .add f, rfl⟩, fun hc =>
    ⟨fun rd _ hx => regUpdate_of_compute_error hc (computeTwo_of_firstBad_left s hx y addFn) f.s rd,
      fun rd _ hx hy => regUpdate_of_compute_error hc (computeTwo_of_firstBad_right s hx hy addFn) f.s rd,
      fun _ _ hx hy => ⟨regUpdate_of_bad_target hc (computeTwo_of_ok hx hy addFn) f.s, exec_add_completes hc hx hy⟩⟩⟩

/-- Settles O36: as ADD, with the difference. -/
theorem subRule : Obligations.SubRule := fun f _ y s =>
  ⟨fun _ => ⟨headerOp_encodeHeader .sub f, rfl⟩, fun hc =>
    ⟨fun rd _ hx => regUpdate_of_compute_error hc (computeTwo_of_firstBad_left s hx y subFn) f.s rd,
      fun rd _ hx hy => regUpdate_of_compute_error hc (computeTwo_of_firstBad_right s hx hy subFn) f.s rd,
      fun _ _ hx hy => ⟨regUpdate_of_bad_target hc (computeTwo_of_ok hx hy subFn) f.s, exec_sub_completes hc hx hy⟩⟩⟩

/-- The three tokens of a shift form become one shift operand, under any extra spellings (R79, R81). -/
theorem parseLine_movShifted (ex : ExtraConds) :
    parseLine ex "MOV R0, R1, LSL #2".toList =
      .ok (none, .mov ⟨none, false⟩ (.reg 0) (.shift .lsl (.reg 1) (some (.imm 2)))) := by
  have hread : readLine ex "MOV R0, R1, LSL #2".toList =
      some (none, (.mov, ⟨none, false⟩), ["R0".toList, "R1".toList, "LSL".toList, "#2".toList]) := rfl
  rw [parseLine, hread]
  rfl

/-- Settles O39: one source, so one way to fail before the target; R15 is a register target as any other. -/
theorem movRule : Obligations.MovRule := fun f _ s =>
  ⟨fun _ => ⟨headerOp_encodeHeader .mov f, rfl⟩, parseLine_movShifted s.params.extraConds, fun hc =>
    ⟨fun rd _ hx => regUpdate_of_compute_error hc (computeOne_of_firstBad s hx fun a _ => a) f.s rd,
      fun _ hx => ⟨regUpdate_of_bad_target hc (computeOne_of_ok hx fun a _ => a) f.s, exec_mov_completes hc hx⟩,
      resolveSimple_cpsr s, resolveSimple_memInd s⟩⟩

end Sys2Proof.Machine
end

section
/-!
PROOFS. The Compare-only shape under a condition that holds (spec/40_engine_and_operands.md R125, R128, R129), and CMP
(spec/44_compare.md).
-/
namespace Sys2Proof.Machine

/-! ### The shape -/

/-- Only CPSR, the cursor and the status are written. -/
theorem wroteNone_complete_advance_setCpsr (s : State) (w : Word) :
    WroteNone s (complete (advance (setCpsr s w))) where
  regs := readReg_congr rfl
  mem := rfl
  next := { pc := rfl, st := rfl, lp := rfl, params := rfl }

section
variable {f : Suffix} {mode : FlagMode} {compute : State → Except RunError Raw} {s : State}

/-- A failed computation raises its error (R129). -/
theorem compare_of_compute_error {e : RunError} (hc : suffixHolds f s.cpsr = true) (he : compute s = .error e) :
    runOperation f (compareBody mode compute) s = .next (takeError s e) :=
  runOperation_error hc (by simp only [compareBody, he])

/-- A Compare-only operation completes with the flags of its computation, whatever its S suffix. -/
theorem compare_completes {r : Raw} (hc : suffixHolds f s.cpsr = true) (hr : compute s = .ok r) :
    ∃ t, runOperation f (compareBody mode compute) s = .next t ∧ WroteNone s t ∧
      FlagsSet s.cpsr t.cpsr (r.res.getLsbD 31) (decide (r.res = 0)) (newC mode r.u) (newV mode r.s) :=
  ⟨_, runOperation_ok hc (compareBody_ok.mpr ⟨r, hr, rfl⟩), wroteNone_complete_advance_setCpsr ..,
    flagsSet_setFlags ..⟩

end

/-! ### CMP -/

/-- CMP sets the flags of SUB; Z is equality of the operands. -/
theorem exec_cmp_completes {f : Suffix} {x y : Operand} {s : State} {a b : Word} (hc : suffixHolds f s.cpsr = true)
    (hx : resolve s x = .ok a) (hy : resolve s y = .ok b) :
    ∃ t, exec (.cmp f x y) s = .next t ∧ WroteNone s t ∧
      FlagsSet s.cpsr t.cpsr ((a - b).getLsbD 31) (decide (a = b)) (decide (b.toNat ≤ a.toNat))
        (overflows (a.toInt - b.toInt)) := by
  have h := compare_completes (mode := .sub) hc (computeTwo_of_ok hx hy subFn)
  have hz : decide (a - b = 0) = decide (a = b) := decide_eq_decide.mpr sub_eq_zero
  rwa [subFn_res, newC_subFn, newV_subFn, hz] at h

/-- Settles O45: the op code from the header's fields, the errors and the completion from the Compare-only shape. -/
theorem cmpRule : Obligations.CmpRule := fun f _ y s =>
  ⟨headerOp_encodeHeader .cmp f, rfl, fun hc =>
    ⟨fun _ hx => compare_of_compute_error hc (computeTwo_of_firstBad_left s hx y subFn),
      fun _ hx hy => compare_of_compute_error hc (computeTwo_of_firstBad_right s hx hy subFn),
      fun _ _ hx hy => exec_cmp_completes hc hx hy⟩⟩

end Sys2Proof.Machine
end

section
/-!
PROOFS. AddressingError (spec/60_exceptions.md R253, R254): only the memory access of a STR or of a loading LDR raises it,
with what the address check in front of the access answers.
-/
namespace Sys2Proof.Machine

/-! ### The address check -/

theorem wordIndex_eq_misaligned_iff {p : Params} {a b : Nat} :
    wordIndex p a = .error (.misaligned b) ↔ a % 4 ≠ 0 ∧ a = b := by
  rw [wordIndex_eq]
  split_ifs <;> simp_all

theorem wordIndex_eq_outOfWindow_iff {p : Params} {a b : Nat} :
    wordIndex p a = .error (.outOfWindow b) ↔
      a % 4 = 0 ∧ (a < p.physMemBase ∨ p.physMemBase + 4 * p.memWords ≤ a) ∧ a = b := by
  rw [wordIndex_eq]
  split_ifs <;> simp_all

/-! ### Where each part of an operation raises an AddressingError -/

/-- The error is an AddressingError of either kind (R250). -/
def RunError.addressing : RunError → Bool
  | .misaligned _ | .outOfWindow _ => true
  | .decodeError _ | .stateModification _ | .unresolvedLabel _ | .ambiguousLabel _ _ | .reservedOperation _ => false

theorem resolve_error_not_addressing {s : State} {x : Operand} {e : RunError} (h : resolve s x = .error e) :
    e.addressing = false := by
  obtain ⟨tok, rfl⟩ := resolve_error h
  rfl

theorem resolveTwo_error_not_addressing {s : State} {x y : Operand} {e : RunError}
    (h : resolveTwo s x y = .error e) : e.addressing = false := by
  unfold resolveTwo at h
  split at h
  · next hx => cases h; exact resolve_error_not_addressing hx
  · split at h
    · next hy => cases h; exact resolve_error_not_addressing hy
    · cases h

theorem computeOne_error_not_addressing {s : State} {x : Operand} {g : Word → Bool → Word} {e : RunError}
    (h : computeOne x g s = .error e) : e.addressing = false := by
  unfold computeOne at h
  split at h
  · next hx => cases h; exact resolve_error_not_addressing hx
  · cases h

theorem computeTwo_error_not_addressing {s : State} {x y : Operand} {g : Word → Word → Bool → Raw} {e : RunError}
    (h : computeTwo x y g s = .error e) : e.addressing = false := by
  unfold computeTwo at h
  split at h
  · next hxy => cases h; exact resolveTwo_error_not_addressing hxy
  · cases h

/-- LDR fails as any one-source computation, or where it loads, with the error of the address check (R230). -/
theorem computeLoad_error {s : State} {x : Operand} {e : RunError} (h : computeLoad x s = .error e) :
    e.addressing = false ∨ (s.params.memIndirectLoads = true ∧
      ∃ n, x = .simple (.memInd n) ∧ wordIndex s.params (readReg s n).toNat = .error e) := by
  unfold computeLoad at h
  split at h
  · next n hm =>
    split at h
    · next hr => cases h; exact .inr ⟨hm, n, rfl, memRead_error.mp hr⟩
    · cases h
  · exact .inl (computeOne_error_not_addressing h)

theorem regUpdateBody_error {mode : FlagMode} {setS : Bool} {rd : Target} {compute : State → Except RunError Raw}
    {s : State} {e : RunError} (h : regUpdateBody mode setS rd compute s = .error e) :
    compute s = .error e ∨ e.addressing = false := by
  unfold regUpdateBody at h
  split at h
  · next hc => cases h; exact .inl hc
  · cases rd with
    | reg d => cases h
    | bad tok => cases h; exact .inr rfl

theorem compareBody_error {mode : FlagMode} {compute : State → Except RunError Raw} {s : State} {e : RunError}
    (h : compareBody mode compute s = .error e) : compute s = .error e := by
  unfold compareBody at h
  split at h
  · next hc => cases h; exact hc
  · cases h

/-- STR fails in its sources, or with both resolved, with the error of the address check (R231). -/
theorem storeBody_error {x y : Operand} {s : State} {e : RunError} (h : storeBody x y s = .error e) :
    e.addressing = false ∨
      ∃ v a, resolve s x = .ok v ∧ resolve s y = .ok a ∧ wordIndex s.params a.toNat = .error e := by
  unfold storeBody at h
  split at h
  · next hxy => cases h; exact .inl (resolveTwo_error_not_addressing hxy)
  · next v a hxy =>
    obtain ⟨hx, hy⟩ := resolveTwo_ok.mp hxy
    split at h
    · next hw => cases h; exact .inr ⟨v, a, hx, hy, memWrite_error.mp hw⟩
    · cases h

theorem lookupLabel_error_not_addressing {tbl : List (Text × List Nat)} {name : Text} {e : RunError}
    (h : lookupLabel tbl name = .error e) : e.addressing = false := by
  unfold lookupLabel at h
  split at h
  · cases h; rfl
  · cases h
  · cases h; rfl

theorem branchBody_error_not_addressing {l : Text} {s : State} {e : RunError} (h : branchBody l s = .error e) :
    e.addressing = false := by
  unfold branchBody at h
  split at h
  · next hl => cases h; exact lookupLabel_error_not_addressing hl
  · cases h

/-! ### The instruction -/

theorem complete_st_ne_faulted (s : State) (r : ErrorRecord) : (complete s).st ≠ .faulted r := by
  rw [complete_st]
  split <;> exact Status.noConfusion

/-- An operation ends faulted only by an error of its shape, recorded with the cursor (R259, R261). -/
theorem runOperation_faulted {f : Suffix} {body : State → Except RunError State} {s t : State} {e : RunError} {k : Nat}
    (h : runOperation f body s = .next t) (hst : t.st = .faulted ⟨e, k⟩) : k = s.pc ∧ body s = .error e := by
  rcases runOperation_cases h with ⟨-, rfl⟩ | ⟨-, e', hb, rfl⟩ | ⟨-, u, -, rfl⟩
  · exact absurd hst (complete_st_ne_faulted _ _)
  · cases hst
    exact ⟨rfl, hb⟩
  · exact absurd hst (complete_st_ne_faulted _ _)

/-- The instruction's data access is at the address: a STR whose sources resolve, at its second source, or an LDR of
`[Rn]` with MEM_INDIRECT_LOADS true, at the value of Rn (spec/45_load_store.md R230, R231). -/
def AccessesAt (i : Instr) (s : State) (a : Nat) : Prop :=
  (∃ f x y v w, i = .str f x y ∧ resolve s x = .ok v ∧ resolve s y = .ok w ∧ a = w.toNat) ∨
    (s.params.memIndirectLoads = true ∧ ∃ f rd n, i = .ldr f rd (.simple (.memInd n)) ∧ a = (readReg s n).toNat)

/-- An instruction that ends faulted names its own operation, and an AddressingError is the answer of the address check
to the address of its access. -/
theorem exec_faulted {i : Instr} {s t : State} {e : RunError} {k : Nat} (h : exec i s = .next t)
    (hst : t.st = .faulted ⟨e, k⟩) :
    k = s.pc ∧ (e.addressing = false ∨ ∃ a, AccessesAt i s a ∧ wordIndex s.params a = .error e) := by
  cases i
  case str f x y =>
    obtain ⟨hk, hb⟩ := runOperation_faulted h hst
    refine ⟨hk, (storeBody_error hb).imp_right ?_⟩
    rintro ⟨v, a, hx, hy, hw⟩
    exact ⟨a.toNat, .inl ⟨f, x, y, v, a, rfl, hx, hy, rfl⟩, hw⟩
  case ldr f rd x =>
    obtain ⟨hk, hb⟩ := runOperation_faulted h hst
    refine ⟨hk, (regUpdateBody_error hb).elim (fun hl => (computeLoad_error hl).imp_right ?_) .inl⟩
    rintro ⟨hm, n, rfl, hw⟩
    exact ⟨_, .inr ⟨hm, f, rd, n, rfl, rfl⟩, hw⟩
  case b f l =>
    exact (runOperation_faulted h hst).imp_right fun hb => .inl (branchBody_error_not_addressing hb)
  case tst | teq | cmp | cmn =>
    exact (runOperation_faulted h hst).imp_right fun hb =>
      .inl (computeTwo_error_not_addressing (compareBody_error hb))
  case mov | mvn | rrx =>
    exact (runOperation_faulted h hst).imp_right fun hb =>
      .inl ((regUpdateBody_error hb).elim computeOne_error_not_addressing id)
  case sub | rsb | add | adc | sbc | rsc | lsl | lsr | asr | ror =>
    exact (runOperation_faulted h hst).imp_right fun hb =>
      .inl ((regUpdateBody_error hb).elim computeTwo_error_not_addressing id)

/-- An AddressingError is the address check's answer to the address of the instruction's access. -/
theorem exec_addressingError {i : Instr} {s t : State} {e : RunError} {k : Nat} (he : e.addressing = true)
    (h : exec i s = .next t) (hst : t.st = .faulted ⟨e, k⟩) :
    k = s.pc ∧ ∃ a, AccessesAt i s a ∧ wordIndex s.params a = .error e :=
  (exec_faulted h hst).imp_right fun hc => hc.resolve_left (by simp [he])

theorem str_traps_of_wordIndex_error {f : Suffix} {x y : Operand} {s : State} {v a : Word} {e : RunError}
    (hc : suffixHolds f s.cpsr = true) (hx : resolve s x = .ok v) (hy : resolve s y = .ok a)
    (he : wordIndex s.params a.toNat = .error e) : Traps (.str f x y) s e :=
  runOperation_error hc (by simp only [storeBody, resolveTwo_ok.mpr ⟨hx, hy⟩, memWrite_error.mpr he])

theorem ldr_traps_of_wordIndex_error {f : Suffix} {n : RegNum} {s : State} {e : RunError}
    (hc : suffixHolds f s.cpsr = true) (hm : s.params.memIndirectLoads = true)
    (he : wordIndex s.params (readReg s n).toNat = .error e) (rd : Target) :
    Traps (.ldr f rd (.simple (.memInd n))) s e :=
  regUpdate_of_compute_error hc (by simp only [computeLoad, hm, memRead_error.mpr he]) f.s rd

/-! ### The two kinds -/

/-- Settles O53: the check comes first in both accesses, and its Misaligned answer has no other source. -/
theorem misalignedAccessesRaise : Obligations.MisalignedAccessesRaise := by
  refine ⟨fun f x y s v a hc hx hy ha => str_traps_of_wordIndex_error hc hx hy (wordIndex_misaligned _ ha),
    fun f rd n s hc hm ha => ldr_traps_of_wordIndex_error hc hm (wordIndex_misaligned _ ha) rd,
    fun i s t a k h hst => ?_⟩
  obtain ⟨hk, a', hacc, hw⟩ := exec_addressingError rfl h hst
  obtain ⟨ha, rfl⟩ := wordIndex_eq_misaligned_iff.mp hw
  exact ⟨ha, hk, hacc⟩

/-- Settles O54: as O53, with the check's second answer. -/
theorem outOfWindowAccessesRaise : Obligations.OutOfWindowAccessesRaise := by
  refine ⟨fun f x y s v a hc hx hy ha hout =>
      str_traps_of_wordIndex_error hc hx hy (wordIndex_outOfWindow _ ha hout),
    fun f rd n s hc hm ha hout => ldr_traps_of_wordIndex_error hc hm (wordIndex_outOfWindow _ ha hout) rd,
    fun i s t a k h hst => ?_⟩
  obtain ⟨hk, a', hacc, hw⟩ := exec_addressingError rfl h hst
  obtain ⟨ha, hout, rfl⟩ := wordIndex_eq_outOfWindow_iff.mp hw
  exact ⟨ha, hout, hk, hacc⟩

end Sys2Proof.Machine
end

section
/-!
PROOFS. A branch to a label that no operation carries (spec/60_exceptions.md R256).
-/
namespace Sys2Proof.Machine

/-- A name that heads no entry of a label table has no index in it (spec/46_branch.md R241). -/
theorem labelIndices_eq_nil_of_absent {tbl : List (Text × List Nat)} {l : Text} (h : ∀ ks, (l, ks) ∉ tbl) :
    labelIndices tbl l = [] := by
  have hnone : tbl.find? (fun e => e.1 == l) = none := by
    rw [List.find?_eq_none]
    rintro ⟨name, ks⟩ hmem heq
    obtain rfl : name = l := by simpa using heq
    exact h ks hmem
  simp [labelIndices, hnone]

theorem b_traps_of_absent_label {f : Suffix} {l : Text} {s : State} (hc : suffixHolds f s.cpsr = true)
    (h : ∀ ks, (l, ks) ∉ progLabels s) : Traps (.b f l) s (.unresolvedLabel l) :=
  runOperation_error hc (by simp only [branchBody, lookupLabel, labelIndices_eq_nil_of_absent h])

/-- A branch to a label that its text does not define builds, under any extra spellings: the Program Builder never looks
a label up (spec/30_encoding.md R89, R90). -/
theorem parseProgram_branchToNowhere (ex : ExtraConds) :
    parseProgram ex "B nowhere".toList =
      .ok { operations := [⟨0, none, encode (.b ⟨none, false⟩ "nowhere".toList)⟩], labels := [] } := rfl

/-- Settles O56: the error at the lookup of a taken B, and a text that builds without its label. -/
theorem unresolvedLabelRaisesWhenTaken : Obligations.UnresolvedLabelRaisesWhenTaken :=
  ⟨fun _ _ _ hc h => b_traps_of_absent_label hc h, fun ex => ⟨_, parseProgram_branchToNowhere ex, rfl⟩⟩

end Sys2Proof.Machine
end

section
/-!
PROOFS. The bundle: its decoder undoes the encoder, and the headers it refuses (spec/30_encoding.md section 6).
-/
namespace Sys2Proof

/-! ### The round trip -/

theorem condOfHeader_encodeHeader (m : Mnemonic) (f : Suffix) :
    (if headerCp (encodeHeader m f) then some (Cond.ofCode (headerCond (encodeHeader m f))) else none) = f.cond := by
  rw [headerCp_encodeHeader, headerCond_encodeHeader, Suffix.condCode]
  cases f.cond <;> simp [Cond.ofCode_code]

/-- Each field of an encoded header reads back as what it was made from. -/
theorem decodeHeader_encodeHeader (m : Mnemonic) (f : Suffix) : decodeHeader (encodeHeader m f) = some (m, f) := by
  rw [decodeHeader, if_pos (headerZero_encodeHeader m f), headerOp_encodeHeader, Mnemonic.ofCode_code,
    condOfHeader_encodeHeader, headerS_encodeHeader, Option.map_some]

/-- An instruction's descriptors fit its mnemonic and give its operands back. -/
theorem fitDescriptors_descriptors (i : Instr) :
    fitDescriptors i.mnemonic i.suffix i.descriptors = some i := by
  cases i <;> rfl

theorem decodeBundle_encode (i : Instr) : decodeBundle (encode i) = .ok i := by
  simp only [decodeBundle, encode, decodeHeader_encodeHeader, fitDescriptors_descriptors]

/-- Settles O1: the header and the descriptors each decode to what was encoded. -/
theorem decodeOfEncodeIsTheInstruction : Obligations.DecodeOfEncodeIsTheInstruction := decodeBundle_encode

/-! ### Reserved headers -/

theorem headerOp_eq_toNat (h : HeaderWord) : headerOp h = (h.extractLsb' 0 5).toNat := by
  simp [headerOp, BitVec.extractLsb'_toNat]

theorem headerZero_eq_toNat (h : HeaderWord) : headerZero h = (h.extractLsb' 11 5).toNat := by
  have := h.isLt
  simp only [headerZero, BitVec.extractLsb'_toNat, Nat.shiftRight_eq_div_pow]
  omega

/-- The five-bit op codes without a mnemonic (R92, R94). -/
theorem ofCode_eq_none_iff (op : BitVec 5) :
    Mnemonic.ofCode op.toNat = none ↔ op ∈ [(0 : BitVec 5), 1, 12, 14] ∨ (24 : BitVec 5) ≤ op := by
  decide +revert

theorem decodeHeader_eq_none_iff (h : HeaderWord) :
    decodeHeader h = none ↔ Mnemonic.ofCode (headerOp h) = none ∨ headerZero h ≠ 0 := by
  by_cases hz : headerZero h = 0 <;> simp [decodeHeader, hz]

/-- Settles O4: the header's two checks, each as a condition on its field. -/
theorem reservedHeadersAreExactlyThoseListed : Obligations.ReservedHeadersAreExactlyThoseListed := by
  intro h
  rw [decodeHeader_eq_none_iff, headerOp_eq_toNat, ofCode_eq_none_iff, headerZero_eq_toNat, or_assoc]
  exact or_congr_right (or_congr_right (BitVec.toNat_ne_iff_ne (y := 0)))

end Sys2Proof
end

section
/-!
PROOFS. The opword: one reading for each text, and the one of an instruction's own spelling (spec/30_encoding.md section 2).
-/
namespace Sys2Proof

/-! ### The mnemonic -/

theorem afterStart_eq_some_iff {a t r : Text} : afterStart a t = some r ↔ t = a ++ r := by
  induction a generalizing t with
  | nil => simp [afterStart]
  | cons x a ih =>
    cases t with
    | nil => simp [afterStart]
    | cons y t => by_cases hxy : x = y <;> simp [afterStart, hxy, ih, Ne.symm]

theorem readOpword_eq_some_iff {ex : ExtraConds} {t : Text} {m m' : Mnemonic} {f : Suffix} :
    readOpword ex t m = some (m', f) ↔ m = m' ∧ ∃ r, t = m.spelling ++ r ∧ parseSuffix ex r = some f := by
  unfold readOpword
  cases h : afterStart m.spelling t with
  | none =>
    have hno (r : Text) : t ≠ m.spelling ++ r := fun e => by simp [afterStart_eq_some_iff.mpr e] at h
    simp [hno]
  | some r =>
    obtain rfl := afterStart_eq_some_iff.mp h
    simp [and_comm]

/-- No mnemonic's spelling begins with another's, so what begins an opword is its mnemonic. -/
theorem mnemonic_eq_of_spelling_prefix {m m' : Mnemonic} (h : m.spelling <+: m'.spelling) : m = m' := by
  have hall : ∀ p ∈ Mnemonic.all, ∀ q ∈ Mnemonic.all, p.spelling <+: q.spelling → p = q := by decide
  exact hall m m.mem_all m' m'.mem_all h

/-- Settles O6: two mnemonics that begin one text are one, and the suffix is read from the same rest. -/
theorem opwordHasOneReading : Obligations.OpwordHasOneReading := by
  intro ex t m m' f f' h h'
  obtain ⟨-, r, hr, -⟩ := readOpword_eq_some_iff.mp h
  obtain ⟨-, r', hr', -⟩ := readOpword_eq_some_iff.mp h'
  have hm : m.spelling <+: t := ⟨r, hr.symm⟩
  have hm' : m'.spelling <+: t := ⟨r', hr'.symm⟩
  obtain rfl : m = m' := (List.prefix_or_prefix_of_prefix hm hm').elim mnemonic_eq_of_spelling_prefix
    fun hp => (mnemonic_eq_of_spelling_prefix hp).symm
  simpa [h] using h'

theorem parseOpword_eq_some_iff {ex : ExtraConds} {t : Text} {m : Mnemonic} {f : Suffix} :
    parseOpword ex t = some (m, f) ↔ readOpword ex t m = some (m, f) := by
  constructor <;> intro h
  · obtain ⟨m', -, hm'⟩ := List.exists_of_findSome?_eq_some h
    obtain ⟨rfl, -⟩ := readOpword_eq_some_iff.mp hm'
    exact hm'
  · have hsome : (parseOpword ex t).isSome := by
      rw [parseOpword, List.findSome?_isSome_iff]
      exact ⟨m, m.mem_all, by simp [h]⟩
    obtain ⟨⟨m', f'⟩, hp⟩ := Option.isSome_iff_exists.mp hsome
    obtain ⟨m'', -, hm'⟩ := List.exists_of_findSome?_eq_some hp
    obtain ⟨rfl, -⟩ := readOpword_eq_some_iff.mp hm'
    obtain ⟨rfl, rfl⟩ := opwordHasOneReading ex t m m'' f f' h hm'
    exact hp

/-! ### The suffixes -/

/-- Each condition reads back from its spelling, NV where it is enabled (R76). -/
theorem parseCond_spelling {ex : ExtraConds} {c : Cond} (h : c = .nv → ex.nv = true) :
    parseCond ex c.spelling = some c := by
  obtain ⟨hs, lo, nv⟩ := ex
  cases c with
  | nv =>
    obtain rfl : nv = true := h rfl
    rfl
  | _ => cases nv <;> rfl

/-- Only `NV` itself reads as NV, and only where it is enabled (R76). -/
theorem nv_of_parseCond {ex : ExtraConds} {t : Text} (h : parseCond ex t = some .nv) : ex.nv = true := by
  obtain ⟨e, he, hnv⟩ := Option.map_eq_some_iff.mp h
  have hmem := List.mem_of_find?_eq_some he
  simp only [condSpellings, List.mem_append, List.mem_map, List.mem_filter] at hmem
  rcases hmem with (⟨c, ⟨-, hc⟩, rfl⟩ | hhs) | hlo
  · obtain rfl : c = .nv := hnv
    simpa using hc
  · split at hhs <;> simp_all
  · split at hlo <;> simp_all

theorem Suffix.wellFormed_iff {ex : ExtraConds} {f : Suffix} :
    f.wellFormed ex = true ↔ (f.cond = some .nv → ex.nv = true) := by
  unfold Suffix.wellFormed
  split <;> simp_all

/-- The text of a suffix: the condition's spelling, then `S` (R72). -/
def Suffix.spelling (f : Suffix) : Text := (f.cond.map Cond.spelling).getD [] ++ if f.s then ['S'] else []

theorem Instr.opword_eq (i : Instr) : i.opword = i.mnemonic.spelling ++ i.suffix.spelling := by
  simp [Instr.opword, Suffix.spelling]

theorem Cond.spelling_eq_pair (c : Cond) : ∃ x y, c.spelling = [x, y] := by cases c <;> exact ⟨_, _, rfl⟩

theorem parseSuffix_spelling {ex : ExtraConds} {f : Suffix} (h : f.wellFormed ex = true) :
    parseSuffix ex f.spelling = some f := by
  obtain ⟨cond, s⟩ := f
  cases cond with
  | none => cases s <;> rfl
  | some c =>
    have hc := parseCond_spelling (ex := ex) (c := c) fun hnv =>
      Suffix.wellFormed_iff.mp h (congrArg some hnv)
    obtain ⟨x, y, hxy⟩ := c.spelling_eq_pair
    rw [hxy] at hc
    cases s <;> simp [Suffix.spelling, hxy, parseSuffix, hc]

theorem wellFormed_of_parseSuffix {ex : ExtraConds} {r : Text} {f : Suffix} (h : parseSuffix ex r = some f) :
    f.wellFormed ex = true := by
  rw [Suffix.wellFormed_iff]
  rintro hnv
  unfold parseSuffix at h
  split at h
  · cases h; cases hnv
  · cases h; cases hnv
  · obtain ⟨c, hc, rfl⟩ := Option.map_eq_some_iff.mp h
    cases hnv
    exact nv_of_parseCond hc
  · obtain ⟨c, hc, rfl⟩ := Option.map_eq_some_iff.mp h
    cases hnv
    exact nv_of_parseCond hc
  · cases h

/-! ### The opword of an instruction -/

theorem parseOpword_opword {ex : ExtraConds} {i : Instr} (h : i.suffix.wellFormed ex = true) :
    parseOpword ex i.opword = some (i.mnemonic, i.suffix) :=
  parseOpword_eq_some_iff.mpr
    (readOpword_eq_some_iff.mpr ⟨rfl, _, i.opword_eq, parseSuffix_spelling h⟩)

theorem wellFormed_of_parseOpword {ex : ExtraConds} {t : Text} {m : Mnemonic} {f : Suffix}
    (h : parseOpword ex t = some (m, f)) : f.wellFormed ex = true := by
  obtain ⟨-, r, -, hr⟩ := readOpword_eq_some_iff.mp (parseOpword_eq_some_iff.mp h)
  exact wellFormed_of_parseSuffix hr

end Sys2Proof
end

section
/-!
PROOFS. The tokens of a text and the texts of tokens (spec/30_encoding.md R72).
-/
namespace Sys2Proof

/-! ### Maximal runs -/

section
variable {sep : Char → Bool} {c d : Char}

theorem words_cons_of_sep (hd : sep d = true) (l : Text) : words sep (d :: l) = words sep l := by
  simp [words, hd]

/-- A lone character before a separator or the end is a run. -/
theorem words_cons_of_boundary (hc : sep c = false) {l : Text} (hl : ∀ d ∈ l.head?, sep d = true) :
    words sep (c :: l) = [c] :: words sep l := by
  cases l with
  | nil => simp [words, hc]
  | cons d l => simp [words, hc, hl d rfl]

theorem exists_words_cons (hc : sep c = false) (l : Text) : ∃ w ws, words sep (c :: l) = w :: ws := by
  cases l with
  | nil => exact ⟨_, _, words_cons_of_boundary hc (by simp)⟩
  | cons d l =>
    by_cases hd : sep d = true
    · exact ⟨_, _, words_cons_of_boundary hc (by simpa using hd)⟩
    · rw [words.eq_def]
      cases h : words sep (d :: l) <;> simp [hc, hd, h]

/-- A character before another one of a run joins that run. -/
theorem words_cons_cons (hc : sep c = false) (hd : sep d = false) (l : Text) :
    ∃ w ws, words sep (d :: l) = w :: ws ∧ words sep (c :: d :: l) = (c :: w) :: ws := by
  obtain ⟨w, ws, h⟩ := exists_words_cons hd l
  refine ⟨w, ws, h, ?_⟩
  rw [words.eq_def]
  simp [hc, hd, h]

end

/-- A text that is one run: not empty, no separator in it. -/
def IsWord (sep : Char → Bool) (t : Text) : Prop := t ≠ [] ∧ ∀ c ∈ t, sep c = false

/-- A word before a separator or the end is the first run. -/
theorem words_append {sep : Char → Bool} {t l : Text} (ht : IsWord sep t) (hl : ∀ d ∈ l.head?, sep d = true) :
    words sep (t ++ l) = t :: words sep l := by
  obtain ⟨hne, hsep⟩ := ht
  induction t with
  | nil => exact absurd rfl hne
  | cons c t ih =>
    have hc : sep c = false := hsep c (by simp)
    cases t with
    | nil => exact words_cons_of_boundary hc hl
    | cons c' t =>
      have hrest := ih (by simp) fun x hx => hsep x (List.mem_cons_of_mem c hx)
      obtain ⟨w, ws, h, h'⟩ := words_cons_cons hc (hsep c' (by simp)) (t ++ l)
      obtain ⟨rfl, rfl⟩ := List.cons_eq_cons.mp (h.symm.trans hrest)
      exact h'

/-- Every run is a word made of the text's characters. -/
theorem isWord_of_mem_words {sep : Char → Bool} {l w : Text} (h : w ∈ words sep l) :
    IsWord sep w ∧ ∀ c ∈ w, c ∈ l := by
  induction l generalizing w with
  | nil => simp [words] at h
  | cons c l ih =>
    by_cases hc : sep c = true
    · rw [words_cons_of_sep hc] at h
      exact (ih h).imp_right fun hl x hx => List.mem_cons_of_mem c (hl x hx)
    · rw [Bool.not_eq_true] at hc
      by_cases hl : ∀ d ∈ l.head?, sep d = true
      · rw [words_cons_of_boundary hc hl, List.mem_cons] at h
        rcases h with rfl | h
        · exact ⟨⟨by simp, by simpa using hc⟩, by simp⟩
        · exact (ih h).imp_right fun hl x hx => List.mem_cons_of_mem c (hl x hx)
      · obtain ⟨d, l', rfl, hd⟩ : ∃ d l', l = d :: l' ∧ sep d = false := by
          cases l with
          | nil => simp at hl
          | cons d l' => exact ⟨d, l', rfl, by simpa using hl⟩
        obtain ⟨w', ws, hw, hw'⟩ := words_cons_cons hc hd l'
        rw [hw] at ih
        rw [hw', List.mem_cons] at h
        rcases h with rfl | h
        · obtain ⟨⟨-, hs⟩, hm⟩ := ih (w := w') (by simp)
          exact ⟨⟨by simp, by simpa [hc] using hs⟩, by
            simpa using fun x hx => .inr (by simpa using hm x hx)⟩
        · exact (ih (List.mem_cons_of_mem w' h)).imp_right fun hl x hx => List.mem_cons_of_mem c (hl x hx)

/-! ### Tokens joined by commas -/

/-- The characters of a token that R71 and R72 let through. -/
theorem tokenOk_iff {t : Text} :
    tokenOk t = true ↔ IsWord isSep t ∧ ∀ c ∈ t, c ≠ ';' ∧ c ≠ '\n' := by
  simp [tokenOk, IsWord, isTchar, and_assoc, forall_and]

theorem IsWord.isTchar {t : Text} (ht : IsWord isSep t) {c : Char} (hc : c ∈ t) : isTchar c = true := by
  simp [Sys2Proof.isTchar, ht.2 c hc]

theorem joinTokens_cons_cons (t u : Text) (ts : List Text) :
    joinTokens (t :: u :: ts) = t ++ ',' :: joinTokens (u :: ts) := rfl

theorem words_joinTokens {ts : List Text} (h : ∀ t ∈ ts, IsWord isSep t) : words isSep (joinTokens ts) = ts := by
  induction ts with
  | nil => rfl
  | cons t ts ih =>
    have ht : IsWord isSep t := h t (by simp)
    have hts := ih fun u hu => h u (List.mem_cons_of_mem t hu)
    cases ts with
    | nil => simpa [joinTokens, words] using words_append (l := []) ht (by simp)
    | cons u ts =>
      have hcomma : isSep ',' = true := by decide
      rw [joinTokens_cons_cons, words_append ht (by simpa using hcomma), words_cons_of_sep hcomma, hts]

theorem head?_joinTokens {t : Text} (ht : t ≠ []) (ts : List Text) : (joinTokens (t :: ts)).head? = t.head? := by
  cases ts <;> cases t <;> simp_all [joinTokens]

theorem exists_getLast?_joinTokens {t : Text} {ts : List Text} (h : ∀ u ∈ t :: ts, IsWord isSep u) :
    ∃ c, (joinTokens (t :: ts)).getLast? = some c ∧ isTchar c = true := by
  induction ts generalizing t with
  | nil =>
    have ht := h t (by simp)
    exact ⟨_, List.getLast?_eq_some_getLast ht.1, ht.isTchar (List.getLast_mem ht.1)⟩
  | cons u ts ih =>
    obtain ⟨c, hc, hchar⟩ := ih fun v hv => h v (List.mem_cons_of_mem t hv)
    exact ⟨c, by simp [joinTokens_cons_cons, List.getLast?_cons, hc], hchar⟩

/-- Tokens joined by commas are read back (R72). -/
theorem tokens_joinTokens {t : Text} {ts : List Text} (h : ∀ u ∈ t :: ts, IsWord isSep u) :
    tokens (joinTokens (t :: ts)) = some (t :: ts) := by
  have ht := h t (by simp)
  have hhead := (head?_joinTokens ht.1 ts).trans (List.head?_eq_some_head ht.1)
  obtain ⟨z, hz, hzc⟩ := exists_getLast?_joinTokens h
  simp [tokens, hhead, ht.isTchar (List.head_mem ht.1), hz, hzc, words_joinTokens h]

/-- What is read as tokens is words of the text's characters. -/
theorem isWord_of_tokens {l : Text} {ts : List Text} (h : tokens l = some ts) {t : Text} (ht : t ∈ ts) :
    IsWord isSep t ∧ ∀ c ∈ t, c ∈ l := by
  unfold tokens at h
  split at h
  · split at h
    · cases h
      exact isWord_of_mem_words ht
    · cases h
  · cases h

/-! ### The first word of a line -/

theorem splitWord_append {w l : Text} (hw : ∀ c ∈ w, isWs c = false) (hl : ∃ c, l.head? = some c ∧ isWs c = false) :
    splitWord (w ++ ' ' :: l) = (w, l) := by
  obtain ⟨c, hc, hws⟩ := hl
  obtain ⟨l, rfl⟩ := List.head?_eq_some_iff.mp hc
  have hw' : ∀ c ∈ w, (!isWs c) = true := by simpa using hw
  have hblank : isWs ' ' = true := by decide
  simp [splitWord, List.takeWhile_append_of_pos hw', List.dropWhile_append_of_pos hw', hblank, hws]

theorem splitWord_of_no_ws {w : Text} (hw : ∀ c ∈ w, isWs c = false) : splitWord w = (w, []) := by
  have hw' : ∀ c ∈ w, (!isWs c) = true := by simpa using hw
  simp [splitWord, List.takeWhile_eq_self_iff.mpr hw', List.dropWhile_eq_nil_iff.mpr hw']

theorem mem_of_mem_splitWord_snd {l : Text} {c : Char} (h : c ∈ (splitWord l).2) : c ∈ l :=
  List.dropWhile_sublist _ |>.mem (List.dropWhile_sublist _ |>.mem h)

theorem isWs_eq_false_of_isSep {c : Char} (h : isSep c = false) : isWs c = false := by
  simp_all [isSep]

theorem joinTokens_no_ws {ts : List Text} (h : ∀ t ∈ ts, IsWord isSep t) : ∀ c ∈ joinTokens ts, isWs c = false := by
  induction ts with
  | nil => simp [joinTokens]
  | cons t ts ih =>
    have ht : ∀ c ∈ t, isWs c = false := fun c hc => isWs_eq_false_of_isSep ((h t (by simp)).2 c hc)
    have hts := ih fun u hu => h u (List.mem_cons_of_mem t hu)
    cases ts with
    | nil => exact ht
    | cons u ts =>
      intro c hc
      rw [joinTokens_cons_cons, List.mem_append, List.mem_cons] at hc
      rcases hc with hc | rfl | hc
      · exact ht c hc
      · decide
      · exact hts c hc

/-- No character of a label is white space (R72, R73). -/
theorem isLabel_no_ws {l : Text} (h : isLabel l = true) : ∀ c ∈ l, isWs c = false := by
  have hchar {c : Char} (hc : isIdStart c = true ∨ isDigit c = true) : isWs c = false := by
    by_contra hws
    obtain rfl | rfl : c = ' ' ∨ c = '\t' := by simpa [isWs, or_iff_not_imp_left] using hws
    all_goals revert hc; decide
  cases l with
  | nil => simp
  | cons d l =>
    simp only [isLabel, Bool.and_eq_true, List.all_eq_true, Bool.or_eq_true] at h
    exact List.forall_mem_cons.mpr ⟨hchar (.inl h.1), fun c hc => hchar (h.2 c hc)⟩

end Sys2Proof
end

section
/-!
PROOFS. Operand tokens and operand lists: their texts are read back, and what is read is well-formed
(spec/30_encoding.md section 3).
-/
namespace Sys2Proof

/-! ### Immediates -/

theorem readDigits_append {base : Nat} {digit : Char → Option Nat} (t u : Text) (n : Nat) :
    readDigits base digit (t ++ u) n = (readDigits base digit t n).bind (readDigits base digit u) := by
  induction t generalizing n with
  | nil => rfl
  | cons c t ih => cases h : digit c <;> simp [readDigits, h, ih]

/-- A hex digit is read back, and is a character of a token. -/
theorem hexChar_spec {d : Nat} (hd : d < 16) : hexDigit (hexChar d) = some d ∧ tokenOk [hexChar d] = true := by
  have hall : ∀ d : Fin 16, hexDigit (hexChar d) = some d.val ∧ tokenOk [hexChar d] = true := by decide
  exact hall ⟨d, hd⟩

/-- The `k` low hex digits of a value read as that value modulo 16^k. -/
theorem readDigits_hexDigits (k n m : Nat) :
    readDigits 16 hexDigit (hexDigits k n) m = some (m * 16 ^ k + n % 16 ^ k) := by
  induction k generalizing n with
  | zero => simp [hexDigits, readDigits, Nat.mod_one]
  | succ k ih =>
    have hd := (hexChar_spec (Nat.mod_lt n (by decide : 0 < 16))).1
    simp only [hexDigits, readDigits_append, ih, Option.bind_some, readDigits, hd, Option.some.injEq]
    rw [Nat.pow_succ', Nat.mod_mul]
    ring

theorem mem_hexDigits {k n : Nat} {c : Char} (h : c ∈ hexDigits k n) : tokenOk [c] = true := by
  induction k generalizing n with
  | zero => cases h
  | succ k ih =>
    rw [hexDigits, List.mem_append, List.mem_singleton] at h
    rcases h with h | rfl
    · exact ih h
    · exact (hexChar_spec (Nat.mod_lt n (by decide))).2

theorem readImm_token (v : Word) : readImm (Simple.token (.imm v)) = some v := by
  have hread : readLiteral ('0' :: 'x' :: hexDigits 8 v.toNat) = some (v.toNat : Int) := by
    have hdigits := readDigits_hexDigits 8 v.toNat 0
    have hlt := v.isLt
    rw [Nat.mod_eq_of_lt (by omega)] at hdigits
    obtain ⟨c, cs, hcs⟩ : ∃ c cs, hexDigits 8 v.toNat = c :: cs := by simp [hexDigits]
    simp_all [readLiteral, readMagnitude]
  simp [Simple.token, readImm, hread]

/-! ### Classes of tokens -/

theorem readRegToken_regDigits (r : RegNum) : readRegToken ('R' :: regDigits r) = some r := by decide +revert

theorem tokenOk_regToken (r : RegNum) : tokenOk ('R' :: regDigits r) = true := by decide +revert

theorem classifyTarget_regToken (r : RegNum) : classifyTarget ('R' :: regDigits r) = .reg r := by decide +revert

theorem classify_memIndToken (r : RegNum) : classify (Simple.token (.memInd r)) = .memInd r := by decide +revert

theorem tokenOk_memIndToken (r : RegNum) : tokenOk (Simple.token (.memInd r)) = true := by decide +revert

theorem Simple.wellFormed_bad {t : Text} :
    Simple.wellFormed (.bad t) = true ↔ tokenOk t = true ∧ classify t = .bad t := by
  simp [Simple.wellFormed]

theorem classify_token {o : Simple} (h : o.wellFormed = true) : classify o.token = o := by
  cases o with
  | reg r => simp [classify, Simple.token, readRegToken_regDigits r]
  | cpsr => decide
  | imm v =>
    have himm := readImm_token v
    rw [Simple.token] at himm ⊢
    simp [classify, readRegToken, himm]
  | memInd r => exact classify_memIndToken r
  | bad t => exact (Simple.wellFormed_bad.mp h).2

theorem tokenOk_token {o : Simple} (h : o.wellFormed = true) : tokenOk o.token = true := by
  cases o with
  | reg r => exact tokenOk_regToken r
  | cpsr => decide
  | imm v =>
    have hdigits : ∀ c ∈ hexDigits 8 v.toNat, isTchar c = true ∧ c ≠ ';' ∧ c ≠ '\n' := fun c hc => by
      simpa [tokenOk, and_assoc] using mem_hexDigits hc
    have hmark : tokenOk ['#', '0', 'x'] = true := by decide
    simp_all [tokenOk, Simple.token]
  | memInd r => exact tokenOk_memIndToken r
  | bad t => exact (Simple.wellFormed_bad.mp h).1

/-- A text without a class is its own `Bad` token (R84). -/
theorem eq_of_classify_eq_bad {t u : Text} (h : classify t = .bad u) : u = t := by
  unfold classify at h
  split at h
  · cases h
  · split at h
    · cases h
    · split at h
      · cases h
      · split at h
        · cases h
        · exact (Simple.bad.inj h).symm

theorem wellFormed_classify {t : Text} (h : tokenOk t = true) : (classify t).wellFormed = true := by
  cases hc : classify t with
  | bad u =>
    obtain rfl := eq_of_classify_eq_bad hc
    exact Simple.wellFormed_bad.mpr ⟨h, hc⟩
  | reg | cpsr | imm | memInd => rfl

theorem classifyTarget_token {t : Target} (h : t.wellFormed = true) : classifyTarget t.token = t := by
  cases t with
  | reg r => exact classifyTarget_regToken r
  | bad t => exact of_decide_eq_true (Bool.and_eq_true_iff.mp h).2

theorem tokenOk_targetToken {t : Target} (h : t.wellFormed = true) : tokenOk t.token = true := by
  cases t with
  | reg r => exact tokenOk_regToken r
  | bad t => exact (Bool.and_eq_true_iff.mp h).1

theorem wellFormed_classifyTarget {t : Text} (h : tokenOk t = true) : (classifyTarget t).wellFormed = true := by
  cases hc : classifyTarget t with
  | reg r => rfl
  | bad u =>
    obtain rfl : t = u := by
      unfold classifyTarget at hc
      split at hc
      · cases hc
      · exact Target.bad.inj hc
    simp [Target.wellFormed, h, hc]

/-! ### Shift kinds -/

theorem readShiftKind_eq_some_iff {t : Text} {k : ShiftKind} : readShiftKind t = some k ↔ t = k.spelling := by
  constructor
  · intro h
    unfold readShiftKind at h
    have hp := List.find?_some h
    exact (beq_iff_eq.mp hp).symm
  · rintro rfl
    cases k <;> rfl

theorem tokenOk_shiftKind (k : ShiftKind) : tokenOk k.spelling = true := by cases k <;> decide

theorem classify_shiftKind (k : ShiftKind) : classify k.spelling = .bad k.spelling := by cases k <;> rfl

/-- Only a Bad token can spell a shift kind, and `notShiftKind` says of it that it does not (R79). -/
theorem readShiftKind_token {o : Simple} (hw : o.wellFormed = true) (h : o.notShiftKind = true) :
    readShiftKind o.token = none := by
  rw [Option.eq_none_iff_forall_ne_some]
  intro k hk
  obtain rfl : o = .bad k.spelling := by
    rw [← classify_token hw, readShiftKind_eq_some_iff.mp hk, classify_shiftKind]
  simp [Simple.notShiftKind, readShiftKind_eq_some_iff.mpr rfl] at h

theorem notShiftKind_classify {t : Text} (h : readShiftKind t = none) : (classify t).notShiftKind = true := by
  cases hc : classify t with
  | bad u =>
    obtain rfl := eq_of_classify_eq_bad hc
    simp [Simple.notShiftKind, h]
  | reg | cpsr | imm | memInd => rfl

/-! ### The shift-operand rewriting -/

theorem rewriteShifts_cons_operand {t : Text} (h : readShiftKind t = none) (ts : List Text) (acc : List Operand) :
    rewriteShifts (t :: ts) acc = rewriteShifts ts (.simple (classify t) :: acc) := by
  rw [rewriteShifts.eq_def]
  simp only [h]

theorem rewriteShifts_cons_rrx {t : Text} (h : readShiftKind t = some .rrx) (ts : List Text) (b : Simple)
    (acc : List Operand) :
    rewriteShifts (t :: ts) (.simple b :: acc) = rewriteShifts ts (.shift .rrx b none :: acc) := by
  rw [rewriteShifts.eq_def]
  simp only [h]

theorem rewriteShifts_cons_shift {t amt : Text} {k : ShiftKind} (hk : k ≠ .rrx) (h : readShiftKind t = some k)
    (ha : readShiftKind amt = none) (ts : List Text) (b : Simple) (acc : List Operand) :
    rewriteShifts (t :: amt :: ts) (.simple b :: acc) =
      rewriteShifts ts (.shift k b (some (classify amt)) :: acc) := by
  rw [rewriteShifts.eq_def]
  cases k with
  | rrx => exact absurd rfl hk
  | lsl | lsr | asr | ror => simp [h, ha]

theorem rewriteShifts_simple {o : Simple} (hw : o.wellFormed = true) (hk : o.notShiftKind = true) (ts : List Text)
    (acc : List Operand) : rewriteShifts (o.token :: ts) acc = rewriteShifts ts (.simple o :: acc) := by
  rw [rewriteShifts_cons_operand (readShiftKind_token hw hk), classify_token hw]

theorem wellFormed_simple_iff {o : Simple} :
    (Operand.simple o).wellFormed = true ↔ o.wellFormed = true ∧ o.notShiftKind = true := by
  simp [Operand.wellFormed]

theorem wellFormed_rrx_iff {b : Simple} :
    (Operand.shift .rrx b none).wellFormed = true ↔ (Operand.simple b).wellFormed = true := by
  simp [Operand.wellFormed]

theorem wellFormed_shift_some_iff {k : ShiftKind} {b a : Simple} :
    (Operand.shift k b (some a)).wellFormed = true ↔
      (Operand.simple b).wellFormed = true ∧ k ≠ .rrx ∧ (Operand.simple a).wellFormed = true := by
  simp [Operand.wellFormed, and_assoc]

/-- Every operand of a source list is read back from its tokens (R81). -/
theorem rewriteShifts_tokens {o : Operand} (h : o.wellFormed = true) (ts : List Text) (acc : List Operand) :
    rewriteShifts (o.tokens ++ ts) acc = rewriteShifts ts (o :: acc) := by
  match o with
  | .simple o =>
    obtain ⟨hw, hk⟩ := wellFormed_simple_iff.mp h
    exact rewriteShifts_simple hw hk ts acc
  | .shift k b none =>
    obtain rfl : k = .rrx := by simpa [Operand.wellFormed] using (Bool.and_eq_true_iff.mp h).2
    obtain ⟨hw, hk⟩ := wellFormed_simple_iff.mp (wellFormed_rrx_iff.mp h)
    exact (rewriteShifts_simple hw hk _ acc).trans (rewriteShifts_cons_rrx rfl ts b acc)
  | .shift k b (some a) =>
    obtain ⟨hb, hk, ha⟩ := wellFormed_shift_some_iff.mp h
    obtain ⟨hbw, hbk⟩ := wellFormed_simple_iff.mp hb
    obtain ⟨haw, hak⟩ := wellFormed_simple_iff.mp ha
    have hshift := rewriteShifts_cons_shift hk (readShiftKind_eq_some_iff.mpr rfl) (readShiftKind_token haw hak)
      ts b acc
    rw [classify_token haw] at hshift
    exact (rewriteShifts_simple hbw hbk _ acc).trans hshift

theorem rewriteShifts_flatten {ops : List Operand} (h : ∀ o ∈ ops, o.wellFormed = true) (acc : List Operand) :
    rewriteShifts (ops.map Operand.tokens).flatten acc = some (acc.reverse ++ ops) := by
  induction ops generalizing acc with
  | nil => simp [rewriteShifts]
  | cons o ops ih =>
    obtain ⟨ho, hops⟩ := List.forall_mem_cons.mp h
    rw [List.map_cons, List.flatten_cons, rewriteShifts_tokens ho, ih hops]
    simp

theorem tokenOk_operandTokens {o : Operand} (h : o.wellFormed = true) : ∀ t ∈ o.tokens, tokenOk t = true := by
  match o with
  | .simple o => simpa [Operand.tokens] using tokenOk_token (wellFormed_simple_iff.mp h).1
  | .shift k b none =>
    simp_all [Operand.tokens, Operand.wellFormed, tokenOk_token, tokenOk_shiftKind]
  | .shift k b (some a) =>
    simp_all [Operand.tokens, Operand.wellFormed, tokenOk_token, tokenOk_shiftKind]

/-- What the rewriting makes of tokens, onto well-formed operands, is well-formed: each step pushes a token's class, or
turns the last simple operand into a shift. -/
theorem wellFormed_of_rewriteShifts {ts : List Text} {acc o : List Operand} (hts : ∀ t ∈ ts, tokenOk t = true)
    (hacc : ∀ x ∈ acc, x.wellFormed = true) (h : rewriteShifts ts acc = some o) : ∀ x ∈ o, x.wellFormed = true := by
  induction ts, acc using rewriteShifts.induct with
  | case1 acc =>
    obtain rfl : acc.reverse = o := by simpa [rewriteShifts] using h
    simpa using hacc
  | case2 t ts acc hk ih =>
    rw [rewriteShifts_cons_operand hk] at h
    obtain ⟨ht, hts⟩ := List.forall_mem_cons.mp hts
    have hnew := wellFormed_simple_iff.mpr ⟨wellFormed_classify ht, notShiftKind_classify hk⟩
    exact ih hts (List.forall_mem_cons.mpr ⟨hnew, hacc⟩) h
  | case3 t ts hk b acc ih =>
    rw [rewriteShifts_cons_rrx hk] at h
    obtain ⟨hb, hacc⟩ := List.forall_mem_cons.mp hacc
    exact ih (List.forall_mem_cons.mp hts).2 (List.forall_mem_cons.mpr ⟨wellFormed_rrx_iff.mpr hb, hacc⟩) h
  | case6 t k hk ht b acc amt ts hamt ih =>
    have hnone : readShiftKind amt = none := by simpa using hamt
    rw [rewriteShifts_cons_shift hk ht hnone] at h
    obtain ⟨hb, hacc⟩ := List.forall_mem_cons.mp hacc
    obtain ⟨-, ha, hts⟩ : tokenOk t = true ∧ tokenOk amt = true ∧ ∀ t ∈ ts, tokenOk t = true := by simpa using hts
    have hnew := wellFormed_simple_iff.mpr ⟨wellFormed_classify ha, notShiftKind_classify hnone⟩
    exact ih hts (List.forall_mem_cons.mpr ⟨wellFormed_shift_some_iff.mpr ⟨hb, hk, hnew⟩, hacc⟩) h
  | case4 | case5 | case7 => simp_all [rewriteShifts.eq_def]

end Sys2Proof
end

section
/-!
PROOFS. A line: the one that spells an instruction decodes to it, and what a line decodes to is well-formed
(spec/30_encoding.md sections 2, 3 and 7).
-/
namespace Sys2Proof

/-! ### The operand list of an instruction -/

theorem firstWellFormed_iff {o : Operand} :
    o.firstWellFormed = true ↔ ∃ x : Simple, o = .simple x ∧ x.wellFormed = true := by
  cases o <;> simp [Operand.firstWellFormed]

/-- A well-formed instruction's tokens are its target token (the first source of a compare or a store, the label of a
branch), then those of a source list from which it is built again (R83). -/
theorem exists_tokens_eq {ex : ExtraConds} {i : Instr} (h : i.wellFormed ex = true) :
    ∃ tt ops, i.tokens = tt :: (ops.map Operand.tokens).flatten ∧ tokenOk tt = true ∧
      (∀ o ∈ ops, o.wellFormed = true) ∧ buildInstr i.mnemonic i.suffix tt ops = some i := by
  have hops := (Bool.and_eq_true_iff.mp h).2
  cases i
  case b f t => exact ⟨t, [], rfl, hops, by simp, rfl⟩
  case tst f x y | teq f x y | cmp f x y | cmn f x y | str f x y =>
    obtain ⟨hx, hy⟩ := Bool.and_eq_true_iff.mp hops
    obtain ⟨x, rfl, hx⟩ := firstWellFormed_iff.mp hx
    refine ⟨x.token, [y], by simp [Instr.tokens, Instr.target, Instr.sources, Operand.tokens], tokenOk_token hx,
      by simpa using hy, ?_⟩
    simp only [Instr.mnemonic, Instr.suffix, buildInstr, classify_token hx]
  case mov f t x | mvn f t x | rrx f t x | ldr f t x =>
    obtain ⟨ht, hx⟩ := Bool.and_eq_true_iff.mp hops
    refine ⟨t.token, [x], rfl, tokenOk_targetToken ht, by simpa using hx, ?_⟩
    simp only [Instr.mnemonic, Instr.suffix, buildInstr, classifyTarget_token ht]
  all_goals
    rename_i f t x y
    obtain ⟨htx, hy⟩ := Bool.and_eq_true_iff.mp hops
    obtain ⟨ht, hx⟩ := Bool.and_eq_true_iff.mp htx
    refine ⟨t.token, [x, y], rfl, tokenOk_targetToken ht, by simp [hx, hy], ?_⟩
    simp only [Instr.mnemonic, Instr.suffix, buildInstr, classifyTarget_token ht]

/-- What is built from well-formed parts is well-formed. -/
theorem wellFormed_of_buildInstr {ex : ExtraConds} {m : Mnemonic} {f : Suffix} {tt : Text} {ops : List Operand}
    {i : Instr} (h : buildInstr m f tt ops = some i) (hf : f.wellFormed ex = true) (ht : tokenOk tt = true)
    (hops : ∀ o ∈ ops, o.wellFormed = true) : i.wellFormed ex = true := by
  have hc := wellFormed_classify ht
  have htarget := wellFormed_classifyTarget ht
  unfold buildInstr at h
  split at h
  case h_21 => cases h
  all_goals
    cases h
    simp_all [Instr.wellFormed, Instr.suffix, Operand.firstWellFormed]

/-! ### A line read -/

theorem readUnlabelled_eq_some_iff {ex : ExtraConds} {line : Text} {w : Mnemonic × Suffix} {ts : List Text} :
    readUnlabelled ex line = some (w, ts) ↔
      parseOpword ex (splitWord line).1 = some w ∧ tokens (splitWord line).2 = some ts := by
  unfold readUnlabelled
  cases parseOpword ex (splitWord line).1 <;> cases tokens (splitWord line).2 <;> simp

/-- A labelled reading is a reading of what follows the first word; an unlabelled one, of the whole line (R74). -/
theorem readLine_cases {ex : ExtraConds} {line : Text} {lbl : Option Text} {r : (Mnemonic × Suffix) × List Text}
    (h : readLine ex line = some (lbl, r)) :
    (labelOk lbl = true ∧ readUnlabelled ex (splitWord line).2 = some r) ∨
      (lbl = none ∧ readUnlabelled ex line = some r) := by
  have plain (hp : (readUnlabelled ex line).map (fun r => (none, r)) = some (lbl, r)) :
      lbl = none ∧ readUnlabelled ex line = some r := by
    obtain ⟨r', hr, he⟩ := Option.map_eq_some_iff.mp hp
    cases he
    exact ⟨rfl, hr⟩
  simp only [readLine] at h
  split at h
  · next hl =>
    split at h
    · next hr => cases h; exact .inl ⟨hl, hr⟩
    · exact .inr (plain h)
  · exact .inr (plain h)

theorem parseLine_of_readLine {ex : ExtraConds} {line tt : Text} {lbl : Option Text} {m : Mnemonic} {f : Suffix}
    {ts : List Text} {ops : List Operand} {i : Instr} (hr : readLine ex line = some (lbl, (m, f), tt :: ts))
    (ho : rewriteShifts ts [] = some ops) (hb : buildInstr m f tt ops = some i) : parseLine ex line = .ok (lbl, i) := by
  simp only [parseLine, hr, ho, hb]

theorem readLine_of_parseLine {ex : ExtraConds} {line : Text} {lbl : Option Text} {i : Instr}
    (h : parseLine ex line = .ok (lbl, i)) : ∃ m f tt ts ops, readLine ex line = some (lbl, (m, f), tt :: ts) ∧
      rewriteShifts ts [] = some ops ∧ buildInstr m f tt ops = some i := by
  unfold parseLine at h
  split at h
  · next hr =>
    split at h
    · cases h
    · next ho =>
      split at h
      · cases h
      · next hb =>
        cases h
        exact ⟨_, _, _, _, _, hr, ho, hb⟩
  · cases h

/-- Settles O3: each part is read from the line's characters, and what reads it answers well-formed parts. -/
theorem decodedLinesAreWellFormed : Obligations.DecodedLinesAreWellFormed := by
  intro ex line lbl i hline h
  obtain ⟨m, f, tt, ts, ops, hr, ho, hb⟩ := readLine_of_parseLine h
  obtain ⟨l, hl, hsub, hlbl⟩ : ∃ l, readUnlabelled ex l = some ((m, f), tt :: ts) ∧ (∀ c ∈ l, c ∈ line) ∧
      labelOk lbl = true := by
    rcases readLine_cases hr with ⟨hlbl, hread⟩ | ⟨rfl, hread⟩
    · exact ⟨_, hread, fun c => mem_of_mem_splitWord_snd, hlbl⟩
    · exact ⟨_, hread, fun c hc => hc, rfl⟩
  obtain ⟨hop, htok⟩ := readUnlabelled_eq_some_iff.mp hl
  have hok : ∀ t ∈ tt :: ts, tokenOk t = true := fun t ht =>
    have ⟨hw, hc⟩ := isWord_of_tokens htok ht
    tokenOk_iff.mpr ⟨hw, fun c hct => hline c (hsub c (mem_of_mem_splitWord_snd (hc c hct)))⟩
  obtain ⟨htt, hts⟩ := List.forall_mem_cons.mp hok
  exact ⟨wellFormed_of_buildInstr hb (wellFormed_of_parseOpword hop) htt
    (wellFormed_of_rewriteShifts hts (by simp) ho), hlbl⟩

/-! ### A line written -/

theorem Mnemonic.spelling_no_ws (m : Mnemonic) : ∀ c ∈ m.spelling, isWs c = false := by
  cases m <;> simp [Mnemonic.spelling, isWs]

theorem Suffix.spelling_no_ws (f : Suffix) : ∀ c ∈ f.spelling, isWs c = false := by
  obtain ⟨cond, s⟩ := f
  have hs : ∀ c ∈ (if s then ['S'] else []), isWs c = false := by cases s <;> simp [isWs]
  refine List.forall_mem_append.mpr ⟨?_, hs⟩
  cases cond with
  | none => simp
  | some c => cases c <;> simp [Cond.spelling, isWs]

theorem opword_no_ws (i : Instr) : ∀ c ∈ i.opword, isWs c = false := by
  rw [Instr.opword_eq]
  exact List.forall_mem_append.mpr ⟨i.mnemonic.spelling_no_ws, i.suffix.spelling_no_ws⟩

theorem opword_ne_nil (i : Instr) : i.opword ≠ [] := by
  rw [Instr.opword_eq]
  cases i <;> exact List.cons_ne_nil _ _

section
variable {ex : ExtraConds} {i : Instr}

/-- The tokens of a well-formed instruction are words. -/
theorem isWord_tokens (h : i.wellFormed ex = true) : ∀ t ∈ i.tokens, IsWord isSep t := by
  obtain ⟨tt, ops, htok, htt, hops, -⟩ := exists_tokens_eq h
  rw [htok]
  refine List.forall_mem_cons.mpr ⟨(tokenOk_iff.mp htt).1, fun t ht => ?_⟩
  obtain ⟨l, hl, htl⟩ := List.mem_flatten.mp ht
  obtain ⟨o, ho, rfl⟩ := List.mem_map.mp hl
  exact (tokenOk_iff.mp (tokenOk_operandTokens (hops o ho) t htl)).1

/-- The line's first word is the opword and the rest is its tokens. -/
theorem splitWord_line (h : i.wellFormed ex = true) : splitWord i.line = (i.opword, joinTokens i.tokens) := by
  have hw := isWord_tokens h
  obtain ⟨tt, ops, htok, -⟩ := exists_tokens_eq h
  rw [htok] at hw
  have htt := hw tt (by simp)
  refine splitWord_append (opword_no_ws i) ⟨_, ?_, isWs_eq_false_of_isSep (htt.2 _ (List.head_mem htt.1))⟩
  rw [htok, head?_joinTokens htt.1, List.head?_eq_some_head htt.1]

theorem readUnlabelled_line (h : i.wellFormed ex = true) :
    readUnlabelled ex i.line = some ((i.mnemonic, i.suffix), i.tokens) := by
  have hw := isWord_tokens h
  obtain ⟨tt, ops, htok, -⟩ := exists_tokens_eq h
  rw [readUnlabelled_eq_some_iff, splitWord_line h]
  refine ⟨parseOpword_opword (Bool.and_eq_true_iff.mp h).1, ?_⟩
  rw [htok] at hw ⊢
  exact tokens_joinTokens hw

/-- Tokens joined by commas hold no white space, so they are no line by themselves: the reading of an instruction's line
with its opword as the label fails (R74). -/
theorem readUnlabelled_joinTokens (h : i.wellFormed ex = true) : readUnlabelled ex (joinTokens i.tokens) = none := by
  rw [Option.eq_none_iff_forall_ne_some]
  rintro ⟨w, ts⟩ hr
  obtain ⟨-, htok⟩ := readUnlabelled_eq_some_iff.mp hr
  simp [splitWord_of_no_ws (joinTokens_no_ws (isWord_tokens h)), tokens] at htok

theorem readLine_labelledLine {lbl : Option Text} (h : i.wellFormed ex = true) (hl : labelOk lbl = true) :
    readLine ex (labelledLine lbl i) = some (lbl, (i.mnemonic, i.suffix), i.tokens) := by
  cases lbl with
  | none =>
    simp [labelledLine, readLine, splitWord_line h, readUnlabelled_joinTokens h, readUnlabelled_line h]
  | some l =>
    have hhead : i.line.head? = some (i.opword.head (opword_ne_nil i)) := by
      rw [Instr.line, List.head?_append_of_ne_nil _ (opword_ne_nil i), List.head?_eq_some_head]
    have hsplit : splitWord (l ++ ' ' :: i.line) = (l, i.line) :=
      splitWord_append (isLabel_no_ws hl) ⟨_, hhead, opword_no_ws i _ (List.head_mem _)⟩
    have hl : isLabel l = true := hl
    simp [labelledLine, readLine, hsplit, hl, readUnlabelled_line h]

end

/-- Settles O2: the line splits into its opword and tokens again, and from the tokens the operands are built again. -/
theorem decodeOfLineIsTheInstruction : Obligations.DecodeOfLineIsTheInstruction := by
  intro ex lbl i h hl
  obtain ⟨tt, ops, htok, -, hops, hb⟩ := exists_tokens_eq h
  have hr := readLine_labelledLine h hl
  rw [htok] at hr
  exact parseLine_of_readLine hr (rewriteShifts_flatten hops []) hb

end Sys2Proof
end

section
/-!
PROOFS. Building instructions and programs: the operand count, the operations of the lines in order, the first failing line
and the label table (spec/30_encoding.md sections 3 and 5).
-/
namespace Sys2Proof

/-! ### One instruction -/

/-- Settles O5: each line and each header word is read by evaluation. -/
theorem specLinesAndHeadersDecode : Obligations.SpecLinesAndHeadersDecode :=
  ⟨rfl, rfl, rfl, rfl, rfl, rfl, rfl, rfl⟩

/-- Only a list of the mnemonic's count is built from (R82). -/
theorem length_of_buildInstr {m : Mnemonic} {f : Suffix} {tt : Text} {o : List Operand} {i : Instr}
    (h : buildInstr m f tt o = some i) : o.length = m.operandCount := by
  unfold buildInstr at h
  split at h
  case h_21 => cases h
  all_goals rfl

theorem exists_buildInstr {m : Mnemonic} (f : Suffix) (tt : Text) {o : List Operand} (h : o.length = m.operandCount) :
    ∃ i, buildInstr m f tt o = some i ∧ i.mnemonic = m ∧ i.suffix = f := by
  cases m
  case b =>
    obtain rfl := List.length_eq_zero_iff.mp h
    exact ⟨_, rfl, rfl, rfl⟩
  case tst | teq | cmp | cmn | str | mov | mvn | rrx | ldr =>
    obtain ⟨x, rfl⟩ := List.length_eq_one_iff.mp h
    exact ⟨_, rfl, rfl, rfl⟩
  all_goals
    obtain ⟨x, y, rfl⟩ := List.length_eq_two.mp h
    exact ⟨_, rfl, rfl, rfl⟩

/-- Settles O7: a list of the right length has the shape of its mnemonic's case, and each case has its mnemonic's count. -/
theorem operandCountsAreEnforced : Obligations.OperandCountsAreEnforced := fun _ f tt _ =>
  ⟨exists_buildInstr f tt, fun hne =>
    Option.eq_none_iff_forall_ne_some.mpr fun _ hi => hne (length_of_buildInstr hi)⟩

/-! ### The lines in order -/

section
variable {ex : ExtraConds}

theorem buildOperations_cons_ok {n : Nat} {l : Text} {ls : List Text} {lbl : Option Text} {i : Instr}
    (h : parseLine ex l = .ok (lbl, i)) :
    buildOperations ex n (l :: ls) =
      (buildOperations ex (n + 1) ls).map (fun ops => ⟨n, lbl, encode i⟩ :: ops) := by
  rw [buildOperations, h]
  cases buildOperations ex (n + 1) ls <;> rfl

theorem buildOperations_cons_error {n : Nat} {l : Text} {ls : List Text} {r : LineError}
    (h : parseLine ex l = .error r) : buildOperations ex n (l :: ls) = .error ⟨n, l, r⟩ := by
  rw [buildOperations, h]

/-- A build that fails at an index has parsed every line before that one (R90). -/
theorem buildOperations_error {n : Nat} {ls : List Text} {e : BuildError} (h : buildOperations ex n ls = .error e) :
    ∃ before after, ls = before ++ e.text :: after ∧ n + before.length = e.lineIndex ∧
      (∀ l ∈ before, ∃ r, parseLine ex l = .ok r) ∧ parseLine ex e.text = .error e.reason := by
  induction ls generalizing n with
  | nil => cases h
  | cons l ls ih =>
    cases hl : parseLine ex l with
    | error r =>
      rw [buildOperations_cons_error hl] at h
      cases h
      exact ⟨[], ls, rfl, rfl, by simp, hl⟩
    | ok r =>
      rw [buildOperations_cons_ok hl] at h
      cases hls : buildOperations ex (n + 1) ls with
      | ok ops => simp [hls, Except.map] at h
      | error e' =>
        obtain rfl : e' = e := by simpa [hls, Except.map] using h
        obtain ⟨before, after, rfl, hlen, hok, hbad⟩ := ih hls
        exact ⟨l :: before, after, rfl, by simp; omega, List.forall_mem_cons.mpr ⟨⟨r, hl⟩, hok⟩, hbad⟩

/-- The operation of each line is numbered by its position and holds what the line decodes to (R83, R90). -/
theorem buildOperations_ok {n : Nat} {ls : List Text} {ops : List Operation} (h : buildOperations ex n ls = .ok ops) :
    ops.length = ls.length ∧ ∀ k line, ls[k]? = some line → ∃ lbl i, parseLine ex line = .ok (lbl, i) ∧
      ops[k]? = some (Operation.mk (n + k) lbl (encode i)) := by
  induction ls generalizing n ops with
  | nil =>
    cases h
    simp
  | cons l ls ih =>
    cases hl : parseLine ex l with
    | error r => simp [buildOperations_cons_error hl] at h
    | ok r =>
      rw [buildOperations_cons_ok hl] at h
      cases hls : buildOperations ex (n + 1) ls with
      | error e => simp [hls, Except.map] at h
      | ok ops' =>
        obtain rfl : _ :: ops' = ops := by simpa [hls, Except.map] using h
        obtain ⟨hlen, hget⟩ := ih hls
        refine ⟨by simp [hlen], fun k line hk => ?_⟩
        cases k with
        | zero =>
          cases hk
          exact ⟨r.1, r.2, hl, rfl⟩
        | succ k =>
          obtain ⟨lbl, i, hp, ho⟩ := hget k line hk
          exact ⟨lbl, i, hp, by simpa [Nat.add_assoc, Nat.add_comm 1] using ho⟩

theorem exists_buildOperations_ok {ls : List Text} (h : ∀ l ∈ ls, ∃ r, parseLine ex l = .ok r) (n : Nat) :
    ∃ ops, buildOperations ex n ls = .ok ops := by
  induction ls generalizing n with
  | nil => exact ⟨[], rfl⟩
  | cons l ls ih =>
    obtain ⟨⟨r, hl⟩, hls⟩ := List.forall_mem_cons.mp h
    obtain ⟨ops, hops⟩ := ih hls (n + 1)
    exact ⟨_, by rw [buildOperations_cons_ok hl, hops]; rfl⟩

/-! ### A program -/

theorem parseProgram_error_iff {text : Text} {e : BuildError} :
    parseProgram ex text = .error e ↔ buildOperations ex 0 (filterLines text) = .error e := by
  unfold parseProgram
  split <;> simp_all

theorem parseProgram_ok_iff {text : Text} {p : Program} :
    parseProgram ex text = .ok p ↔
      buildOperations ex 0 (filterLines text) = .ok p.operations ∧ p.labels = labelTable p.operations := by
  obtain ⟨ops, labels⟩ := p
  unfold parseProgram
  cases buildOperations ex 0 (filterLines text) with
  | error e => simp
  | ok ops' =>
    simp only [Except.ok.injEq, Program.mk.injEq]
    exact and_congr_right fun h => by rw [h, eq_comm]

end

/-- Settles O8: the failing line splits the filtered lines at its index. -/
theorem firstFailingLineIsReported : Obligations.FirstFailingLineIsReported := by
  intro ex text e h
  obtain ⟨before, after, hlines, hlen, hok, hbad⟩ := buildOperations_error (parseProgram_error_iff.mp h)
  exact ⟨before, after, hlines, by omega, hok, hbad, rfl, rfl⟩

/-- Every operation of a build stands at its own number and holds an encoded instruction. -/
theorem operation_of_buildOperations {ex : ExtraConds} {ls : List Text} {ops : List Operation}
    (h : buildOperations ex 0 ls = .ok ops) {k : Nat} {o : Operation} (ho : ops[k]? = some o) :
    o.lineIndex = k ∧ ∃ i, o.bundle = encode i := by
  obtain ⟨hlen, hget⟩ := buildOperations_ok h
  have hk : k < ls.length := hlen ▸ (List.getElem?_eq_some_iff.mp ho).1
  obtain ⟨lbl, i, -, hk⟩ := hget k _ (List.getElem?_eq_getElem hk)
  obtain rfl := Option.some.inj (ho.symm.trans hk)
  exact ⟨Nat.zero_add k, i, rfl⟩

theorem program_wf_of_parseProgram {ex : ExtraConds} {text : Text} {p : Program} (h : parseProgram ex text = .ok p) :
    Machine.Program.wf p = true := by
  obtain ⟨hops, hlabels⟩ := parseProgram_ok_iff.mp h
  have hnum : p.operations.map (fun o => o.lineIndex) = List.range p.operations.length :=
    List.ext_getElem (by simp) fun k h₁ h₂ => by
      simpa using (operation_of_buildOperations hops (List.getElem?_eq_getElem (by simpa using h₁))).1
  simp [Machine.Program.wf, hnum, hlabels]

theorem program_decodes_of_parseProgram {ex : ExtraConds} {text : Text} {p : Program}
    (h : parseProgram ex text = .ok p) : Machine.Program.decodes p = true := by
  rw [Machine.Program.decodes, List.all_eq_true]
  intro o ho
  obtain ⟨k, hk⟩ := List.mem_iff_getElem?.mp ho
  obtain ⟨-, i, hi⟩ := operation_of_buildOperations (parseProgram_ok_iff.mp h).1 hk
  rw [hi, decodeBundle_encode]

/-- Settles O9: the operations of the lines in order, and what follows for the program that holds them. -/
theorem builtProgramsMatchTheirLines : Obligations.BuiltProgramsMatchTheirLines := by
  intro ex text p h
  obtain ⟨hlen, hget⟩ := buildOperations_ok (parseProgram_ok_iff.mp h).1
  simp only [Nat.zero_add] at hget
  exact ⟨hlen, hget, program_wf_of_parseProgram h, program_decodes_of_parseProgram h⟩

/-! ### The label table -/

theorem labelIndices_nil (name : Text) : labelIndices [] name = [] := rfl

theorem labelIndices_cons (n : Text) (ks : List Nat) (tbl : List (Text × List Nat)) (name : Text) :
    labelIndices ((n, ks) :: tbl) name = if n = name then ks else labelIndices tbl name := by
  by_cases h : n = name <;> simp [labelIndices, h]

theorem labelIndices_addLabel (n : Text) (k : Nat) (tbl : List (Text × List Nat)) (name : Text) :
    labelIndices (addLabel n k tbl) name =
      if n = name then labelIndices tbl name ++ [k] else labelIndices tbl name := by
  induction tbl with
  | nil => simp [addLabel, labelIndices_cons, labelIndices_nil]
  | cons e tbl ih =>
    obtain ⟨n', ks⟩ := e
    by_cases hn : n' = n
    · subst hn
      by_cases h : n' = name <;> simp [addLabel, labelIndices_cons, h]
    · by_cases h : n' = name
      · subst h
        simp [addLabel, labelIndices_cons, hn, Ne.symm hn]
      · simp [addLabel, labelIndices_cons, hn, h, ih]

/-- The positions of the operations that carry a label name. -/
def labelPositions (ops : List Operation) (name : Text) : List Nat :=
  (List.range ops.length).filter (fun k => (ops[k]?.bind (fun o => o.label)) == some name)

theorem labelPositions_cons (o : Operation) (ops : List Operation) (name : Text) :
    labelPositions (o :: ops) name =
      (if o.label = some name then [0] else []) ++ (labelPositions ops name).map Nat.succ := by
  rw [labelPositions, List.length_cons, List.range_succ_eq_map, List.filter_cons, List.filter_map]
  by_cases h : o.label = some name <;> simp [h, labelPositions, Function.comp_def]

/-- Each operation's number goes to the end of its own label's list, so the lists ascend (R89). -/
theorem labelIndices_labelTableFrom (k : Nat) (ops : List Operation) (tbl : List (Text × List Nat)) (name : Text) :
    labelIndices (labelTableFrom k ops tbl) name =
      labelIndices tbl name ++ (labelPositions ops name).map (fun j => k + j) := by
  induction ops generalizing k tbl with
  | nil => simp [labelTableFrom, labelPositions]
  | cons o ops ih =>
    have hshift : (labelPositions ops name).map (fun j => k + 1 + j) =
        ((labelPositions ops name).map Nat.succ).map (fun j => k + j) := by
      simp [Nat.add_assoc, Nat.add_comm 1]
    rw [labelPositions_cons, List.map_append, ← hshift, labelTableFrom]
    cases hl : o.label with
    | none => simp [ih]
    | some n =>
      by_cases hn : n = name <;> simp [ih, labelIndices_addLabel, hn]

theorem labelIndices_labelTable (ops : List Operation) (name : Text) :
    labelIndices (labelTable ops) name = labelPositions ops name := by
  simp [labelTable, labelIndices_labelTableFrom, labelIndices_nil]

/-- Settles O10: the table's lists are the positions, and lines that all parse give a program. -/
theorem labelTableListsEveryIndex : Obligations.LabelTableListsEveryIndex :=
  ⟨labelIndices_labelTable, fun _ _ h =>
    have ⟨ops, hops⟩ := exists_buildOperations_ok h 0
    ⟨⟨ops, labelTable ops⟩, parseProgram_ok_iff.mpr ⟨hops, rfl⟩⟩⟩

end Sys2Proof
end

section
/-!
PROOFS. One step: what it fetches, what a false condition skips, and that neither the status nor, without loads, data memory
steers it (spec/40_engine_and_operands.md section 1, spec/60_exceptions.md section 1).
-/
namespace Sys2Proof.Machine

/-! ### The fetch -/

section
variable {s : State} {p : Program} {o : Operation}

theorem fetch_of_decodeBundle {i : Instr} (hp : s.lp = some p) (ho : p.operations[s.pc]? = some o)
    (hd : decodeBundle o.bundle = .ok i) : fetch s = .instr i := by
  simp only [fetch, hp, ho, hd]

theorem fetch_of_reserved (hp : s.lp = some p) (ho : p.operations[s.pc]? = some o)
    (hd : decodeHeader o.bundle.header = none) : fetch s = .rejected (.reservedOperation o.bundle.header) := by
  simp only [fetch, hp, ho, decodeBundle, hd]

theorem fetch_of_end (hp : s.lp = some p) (hpc : p.operations.length ≤ s.pc) : fetch s = .terminal := by
  simp only [fetch, hp, List.getElem?_eq_none hpc]

/-! ### The step on what is fetched -/

theorem step_of_fetch_idle (h : fetch s = .idle) : step s = .next s := by simp only [step, h]

theorem step_of_fetch_terminal (h : fetch s = .terminal) : step s = .next (haltStep s) := by simp only [step, h]

theorem step_of_fetch_reserved {hd : HeaderWord} (h : fetch s = .rejected (.reservedOperation hd)) :
    step s = .next (takeError s (.reservedOperation hd)) := by simp only [step, h]

theorem step_of_fetch_malformed {hd : HeaderWord} (h : fetch s = .rejected (.malformedBundle hd)) :
    step s = .fault (.malformedBundle hd) := by simp only [step, h]

theorem step_of_fetch_instr {i : Instr} (h : fetch s = .instr i) : step s = exec i s := by simp only [step, h]

end

/-- Settles O22: the fetch answers the decoded instruction and the step runs it. -/
theorem stepRunsTheDecodedInstruction : Obligations.StepRunsTheDecodedInstruction := fun _ _ _ _ hp ho hd =>
  step_of_fetch_instr (fetch_of_decodeBundle hp ho hd)

/-- Settles O23: the fetch at the end answers no operation. -/
theorem terminalStepOnlyHalts : Obligations.TerminalStepOnlyHalts := fun _ _ hp hpc =>
  step_of_fetch_terminal (fetch_of_end hp hpc)

/-- Settles O24: the fetch answers the rejection before any condition is looked at. -/
theorem reservedBundleIsRefusedAtFetch : Obligations.ReservedBundleIsRefusedAtFetch := fun _ _ _ hp ho hd =>
  step_of_fetch_reserved (fetch_of_reserved hp ho hd)

/-! ### An instruction as a condition and a body -/

/-- The computation of an instruction of the Register-update or the Compare-only shape. A store and a
branch have none, and their bodies below do not look at it. -/
def instrComputation (i : Instr) (s : State) : Except RunError Raw :=
  match i with
  | .add _ _ x y | .cmn _ x y => computeTwo x y addFn s
  | .adc _ _ x y => computeTwo x y adcFn s
  | .sub _ _ x y | .cmp _ x y => computeTwo x y subFn s
  | .sbc _ _ x y => computeTwo x y sbcFn s
  | .rsb _ _ x y => computeTwo x y rsbFn s
  | .rsc _ _ x y => computeTwo x y rscFn s
  | .tst _ x y => computeTwo x y tstFn s
  | .teq _ x y => computeTwo x y teqFn s
  | .mov _ _ x => computeOne x (fun a _ => a) s
  | .mvn _ _ x => computeOne x (fun a _ => ~~~a) s
  | .lsl _ _ x y => computeShift .lsl x y s
  | .lsr _ _ x y => computeShift .lsr x y s
  | .asr _ _ x y => computeShift .asr x y s
  | .ror _ _ x y => computeShift .ror x y s
  | .rrx _ _ x => computeOne x (fun a c => shiftFn s.params.shiftAmountRule .rrx a 0 c) s
  | .ldr _ _ x => computeLoad x s
  | .str .. | .b .. => .ok (Raw.ofRes 0)

/-- The shape of an instruction on its computation (R124 to R127). -/
def instrBody (i : Instr) (s : State) : Except RunError State :=
  match i, i.target with
  | .str _ x y, _ => storeBody x y s
  | .b _ l, _ => branchBody l s
  | i, some rd => regUpdateBody i.mnemonic.mode i.suffix.s rd (instrComputation i) s
  | i, none => compareBody i.mnemonic.mode (instrComputation i) s

/-- Every instruction is its body under its condition. -/
theorem exec_eq_runOperation (i : Instr) (s : State) : exec i s = runOperation i.suffix (instrBody i) s := by
  cases i <;> rfl

theorem runOperation_skipped {f : Suffix} {body : State → Except RunError State} {s : State}
    (hc : suffixHolds f s.cpsr = false) : runOperation f body s = .next (complete (advance s)) := by
  simp [runOperation, hc]

/-- Settles O25: a false condition leaves no shape to run. -/
theorem skippedOperationOnlyAdvances : Obligations.SkippedOperationOnlyAdvances := fun i s hc => by
  rw [exec_eq_runOperation, runOperation_skipped hc]
  rfl

/-! ### What an instruction does not look at -/

/-- The state with another data memory and another status. -/
def withMemSt (s : State) (m : Memory) (x : Status) : State := { s with mem := m, st := x }

section
variable {s t : State} (hr : t.regs = s.regs) (hc : t.cpsr = s.cpsr) (hp : t.params = s.params)
include hr hc hp

theorem computeOne_congr (x : Operand) (g : Word → Bool → Word) : computeOne x g t = computeOne x g s := by
  simp only [computeOne, resolve_congr hr hc hp, hc]

theorem computeTwo_congr (x y : Operand) (g : Word → Word → Bool → Raw) : computeTwo x y g t = computeTwo x y g s := by
  simp only [computeTwo, resolveTwo_congr hr hc hp, hc]

/-- Memory is looked at by LDR alone, and only where loads are enabled (R230). -/
theorem computeLoad_congr (hm : t.mem = s.mem ∨ s.params.memIndirectLoads = false) (x : Operand) :
    computeLoad x t = computeLoad x s := by
  have hone := computeOne_congr hr hc hp x fun a _ => a
  rcases hm with hm | hm
  · have hread (n : RegNum) : memRead t (readReg t n).toNat = memRead s (readReg s n).toNat := by
      simp only [memRead, readReg_congr hr, hp, hm]
    simp only [computeLoad, hp, hread, hone]
  · simp only [computeLoad, hp, hm, hone]

theorem instrComputation_congr (hm : t.mem = s.mem ∨ s.params.memIndirectLoads = false) (i : Instr) :
    instrComputation i t = instrComputation i s := by
  cases i
  case ldr f rd x => exact computeLoad_congr hr hc hp hm x
  case mov f rd x | mvn f rd x =>
    simp only [instrComputation]
    exact computeOne_congr hr hc hp x _
  case rrx f rd x =>
    simp only [instrComputation, hp]
    exact computeOne_congr hr hc hp x _
  case lsl f rd x y | lsr f rd x y | asr f rd x y | ror f rd x y =>
    simp only [instrComputation, computeShift, hp]
    exact computeTwo_congr hr hc hp x y _
  case str | b => rfl
  all_goals
    rename_i x y
    exact computeTwo_congr hr hc hp x y _

end

section
variable {s : State} (m : Memory) (x : Status)

theorem regUpdateBody_withMemSt {compute : State → Except RunError Raw} (h : compute (withMemSt s m x) = compute s)
    (mode : FlagMode) (setS : Bool) (rd : Target) :
    regUpdateBody mode setS rd compute (withMemSt s m x) =
      (regUpdateBody mode setS rd compute s).map fun u => withMemSt u m x := by
  simp only [regUpdateBody, h]
  cases compute s with
  | error e => rfl
  | ok r =>
    cases rd with
    | bad t => rfl
    | reg d => cases setS <;> rfl

theorem compareBody_withMemSt {compute : State → Except RunError Raw} (h : compute (withMemSt s m x) = compute s)
    (mode : FlagMode) :
    compareBody mode compute (withMemSt s m x) = (compareBody mode compute s).map fun u => withMemSt u m x := by
  simp only [compareBody, h]
  cases compute s <;> rfl

theorem branchBody_withMemSt (l : Text) :
    branchBody l (withMemSt s m x) = (branchBody l s).map fun u => withMemSt u m x := by
  have hl : progLabels (withMemSt s m x) = progLabels s := rfl
  simp only [branchBody, hl]
  cases lookupLabel (progLabels s) l <;> rfl

/-- A store goes to the same word of the other memory. -/
theorem storeBody_withMemSt (value address : Operand) :
    ∃ m', (m = s.mem → ∀ u, storeBody value address s = .ok u → m' = u.mem) ∧
      storeBody value address (withMemSt s m x) = (storeBody value address s).map fun u => withMemSt u m' x := by
  have hres : resolveTwo (withMemSt s m x) value address = resolveTwo s value address :=
    resolveTwo_congr rfl rfl rfl value address
  have hp : (withMemSt s m x).params = s.params := rfl
  cases hs : resolveTwo s value address with
  | error e =>
    simp only [storeBody, hres, hs]
    exact ⟨m, fun _ _ h => (nomatch h), rfl⟩
  | ok va =>
    cases hw : wordIndex s.params va.2.toNat with
    | error e =>
      simp only [storeBody, hres, hs, memWrite, hp, hw]
      exact ⟨m, fun _ _ h => (nomatch h), rfl⟩
    | ok k =>
      simp only [storeBody, hres, hs, memWrite, hp, hw]
      refine ⟨writeWord m va.2.toNat va.1, fun hmem u hu => ?_, rfl⟩
      cases hu
      rw [hmem]
      rfl

end

section
variable {s : State} {m : Memory} (hm : m = s.mem ∨ s.params.memIndirectLoads = false) (x : Status)
include hm

/-- The body of an instruction does the same on another memory and status, to all of the state but these; where only the
status differs, to memory too. -/
theorem instrBody_withMemSt (i : Instr) : ∃ m', (m = s.mem → ∀ u, instrBody i s = .ok u → m' = u.mem) ∧
    instrBody i (withMemSt s m x) = (instrBody i s).map fun u => withMemSt u m' x := by
  have hcomp : instrComputation i (withMemSt s m x) = instrComputation i s :=
    instrComputation_congr (s := s) (t := withMemSt s m x) rfl rfl rfl hm i
  cases i
  case str f value address => exact storeBody_withMemSt m x value address
  case b f l =>
    refine ⟨m, fun hmem u hu => ?_, branchBody_withMemSt m x l⟩
    obtain ⟨k, -, rfl⟩ := branchBody_ok.mp hu
    exact hmem
  case tst | teq | cmp | cmn =>
    refine ⟨m, fun hmem u hu => ?_, compareBody_withMemSt m x hcomp _⟩
    obtain ⟨r, -, rfl⟩ := compareBody_ok.mp hu
    exact hmem
  all_goals
    refine ⟨m, fun hmem u hu => ?_, regUpdateBody_withMemSt m x hcomp _ _ _⟩
    obtain ⟨r, d, -, -, rfl⟩ := regUpdateBody_ok.mp hu
    rw [hmem, regUpdated_mem]

/-- An executed instruction answers the same next state but for memory; where only the status differs, the same one. -/
theorem exec_withMemSt {i : Instr} {t : State} (h : exec i s = .next t) :
    ∃ m', (m = s.mem → m' = t.mem) ∧ exec i (withMemSt s m x) = .next (setMem t m') := by
  obtain ⟨m', hm', hbody⟩ := instrBody_withMemSt hm x i
  rw [exec_eq_runOperation] at h
  simp only [exec_eq_runOperation]
  rcases runOperation_cases h with ⟨hc, rfl⟩ | ⟨hc, e, he, rfl⟩ | ⟨hc, u, hu, rfl⟩
  · exact ⟨m, id, runOperation_skipped hc⟩
  · exact ⟨m, id, runOperation_error hc (by rw [hbody, he]; rfl)⟩
  · exact ⟨m', fun hmem => hm' hmem u hu,
      runOperation_ok (u := withMemSt u m' x) hc (by rw [hbody, hu]; rfl)⟩

end

/-- Settles O27: the fetch does not look at the status, and what answers to it overwrites the status. -/
theorem statusDoesNotSteerTheEngine : Obligations.StatusDoesNotSteerTheEngine := by
  intro s x hlp
  have hfetch : fetch { s with st := x } = fetch s := fetch_congr rfl rfl
  cases hf : fetch s with
  | idle => exact absurd (fetch_idle hf) hlp
  | terminal => exact (step_of_fetch_terminal (hfetch.trans hf)).trans (step_of_fetch_terminal hf).symm
  | rejected r =>
    cases r with
    | reservedOperation hd => exact (step_of_fetch_reserved (hfetch.trans hf)).trans (step_of_fetch_reserved hf).symm
    | malformedBundle hd => exact (step_of_fetch_malformed (hfetch.trans hf)).trans (step_of_fetch_malformed hf).symm
  | instr i =>
    obtain ⟨t, ht⟩ := exec_next i s
    obtain ⟨m', hm', he⟩ := exec_withMemSt (.inl rfl) x ht
    obtain rfl := hm' rfl
    rw [step_of_fetch_instr (hfetch.trans hf), step_of_fetch_instr hf, ht]
    exact he

/-- Settles O28: only an executed instruction could look at memory, and there LDR alone, which does not load. -/
theorem memoryIsUnreadableWithoutIndirectLoads : Obligations.MemoryIsUnreadableWithoutIndirectLoads := by
  intro s t m hload h
  have hfetch : fetch (setMem s m) = fetch s := fetch_congr rfl rfl
  rcases step_cases h with ⟨hlp, rfl⟩ | ⟨p, hp, hpc, rfl⟩ | ⟨p, hp, hpc, ⟨hd, hf, rfl⟩ | ⟨i, hf, he⟩⟩
  · exact ⟨m, step_of_fetch_idle (by simp only [fetch, setMem_lp, hlp])⟩
  · exact ⟨m, step_of_fetch_terminal (fetch_of_end hp hpc)⟩
  · exact ⟨m, step_of_fetch_reserved (hfetch.trans hf)⟩
  · obtain ⟨m', -, he'⟩ := exec_withMemSt (m := m) (.inr hload) s.st he
    exact ⟨m', (step_of_fetch_instr (hfetch.trans hf)).trans he'⟩

/-! ### Errors -/

/-- An executed instruction that ends faulted took an error and did nothing else. -/
theorem eq_takeError_of_exec_faulted {i : Instr} {s t : State} {r : ErrorRecord} (h : exec i s = .next t)
    (hst : t.st = .faulted r) : ∃ e, t = takeError s e := by
  rw [exec_eq_runOperation] at h
  rcases runOperation_cases h with ⟨-, rfl⟩ | ⟨-, e, -, rfl⟩ | ⟨-, u, -, rfl⟩
  · exact absurd hst (complete_st_ne_faulted _ _)
  · exact ⟨e, rfl⟩
  · exact absurd hst (complete_st_ne_faulted _ _)

theorem eq_takeError_of_step_faulted {s t : State} {r : ErrorRecord} (hlp : s.lp ≠ none) (h : step s = .next t)
    (hst : t.st = .faulted r) : ∃ e, t = takeError s e := by
  rcases step_cases h with ⟨hnone, -⟩ | ⟨p, -, -, rfl⟩ | ⟨p, -, -, ⟨hd, -, rfl⟩ | ⟨i, -, he⟩⟩
  · exact absurd hnone hlp
  · cases hst
  · exact ⟨_, rfl⟩
  · exact eq_takeError_of_exec_faulted he hst

/-- Settles O26: the state after an error differs in the status only, which does not steer the next step. -/
theorem errorsChangeOnlyTheStatusAndRepeat : Obligations.ErrorsChangeOnlyTheStatusAndRepeat := by
  intro s t r hlp h hst
  obtain ⟨e, rfl⟩ := eq_takeError_of_step_faulted hlp h hst
  obtain rfl : ⟨e, s.pc⟩ = r := Status.faulted.inj hst
  exact ⟨rfl, rfl, (statusDoesNotSteerTheEngine s _ hlp).trans h⟩

/-! ### Steps of built programs -/

/-- Where every bundle decodes, the fetch rejects none. -/
theorem exists_step_of_decodes {s : State} (h : s.Decodes) : ∃ t, step s = .next t := by
  cases hf : fetch s with
  | idle => exact ⟨_, step_of_fetch_idle hf⟩
  | terminal => exact ⟨_, step_of_fetch_terminal hf⟩
  | rejected r =>
    obtain ⟨p, o, hp, ho, hd⟩ := fetch_rejected hf
    have hdec := List.all_eq_true.mp (h p hp) o (List.mem_of_getElem? ho)
    simp [hd] at hdec
  | instr i =>
    rw [step_of_fetch_instr hf]
    exact exec_next i s

/-- Settles O21: the bundles of a build decode. -/
theorem stepsOfBuiltProgramsNeverStop : Obligations.StepsOfBuiltProgramsNeverStop := by
  intro ex text p s h hp
  refine exists_step_of_decodes fun q hq => ?_
  obtain rfl : p = q := Option.some.inj (hp.symm.trans hq)
  exact program_decodes_of_parseProgram h

end Sys2Proof.Machine
end

section
/-!
PROOFS. The host's commands: what they keep, RESET and CREATE, and how STEP and RUN proceed (spec/70_reset_and_hazards.md).
-/
namespace Sys2Proof.Machine

/-! ### CREATE and RESET -/

theorem readByte_cmdReset (s : State) (a : Nat) : readByte (cmdReset s).mem a = 0 := rfl

/-- Settles O12: the fields of an initial state; RESET reads the parameters alone. -/
theorem resetLeavesTheTableAndIsIdempotent : Obligations.ResetLeavesTheTableAndIsIdempotent := fun s =>
  ⟨readReg_cmdReset s, cmdReset_cpsr s, readByte_cmdReset s, cmdReset_pc s, cmdReset_st s, cmdReset_lp s,
    cmdReset_params s, by rw [cmdReset_eq_initial, cmdReset_eq_initial, initial_params]⟩

/-- Settles O13: the check of the configuration is that of its constraints. -/
theorem createRefusesInvalidConfigurations : Obligations.CreateRefusesInvalidConfigurations := fun _ =>
  ⟨fun h => if_pos (params_valid_iff.mpr h), fun h => if_neg fun hv => h (params_valid_iff.mp hv)⟩

/-! ### What a step keeps -/

theorem exec_keeps_lp_params {i : Instr} {s t : State} (h : exec i s = .next t) : t.lp = s.lp ∧ t.params = s.params := by
  rcases exec_cases h with ⟨-, rfl⟩ | ⟨-, ⟨e, rfl⟩ | ⟨-, d, r, -, rfl⟩ | ⟨-, r, rfl⟩ |
    ⟨f, x, y, v, a, -, -, -, -, -, -, rfl⟩ | ⟨f, l, k, -, -, rfl⟩⟩ <;> simp

theorem step_keeps_lp_params {s t : State} (h : step s = .next t) : t.lp = s.lp ∧ t.params = s.params := by
  rcases step_cases h with ⟨-, rfl⟩ | ⟨p, -, -, rfl⟩ | ⟨p, -, -, ⟨hd, -, rfl⟩ | ⟨i, -, he⟩⟩
  · exact ⟨rfl, rfl⟩
  · exact ⟨rfl, rfl⟩
  · exact ⟨rfl, rfl⟩
  · exact exec_keeps_lp_params he

/-! ### What steps keep, RUN and STEP keep -/

section
variable {P : State → Prop} (hstep : ∀ s t, P s → step s = .next t → P t)
include hstep

theorem runLoop_keeps {n : Nat} {s t : State} (hs : P s)
    (h : runLoop n s = .done t ∨ ∃ e, runLoop n s = .error e t) : P t := by
  induction n generalizing s with
  | zero => simp [runLoop] at h
  | succ n ih =>
    cases hu : step s with
    | fault f => simp [runLoop, hu] at h
    | refused r => simp [runLoop, hu] at h
    | next u =>
      have hPu := hstep s u hs hu
      cases hr : stepResult u with
      | continued => exact ih hPu (by simpa [runLoop, hu, hr] using h)
      | halted =>
        obtain rfl : u = t := by simpa [runLoop, hu, hr] using h
        exact hPu
      | error e =>
        obtain rfl : u = t := by simpa [runLoop, hu, hr] using h
        exact hPu

theorem runCommand_run_keeps {fuel : Nat} {p : Program} {s t : State} (hs : P (cmdLoad p s))
    (h : runCommand fuel (.run p) s = some t) : P t := by
  refine runLoop_keeps hstep (n := fuel) hs ?_
  simp only [runCommand, cmdRun] at h
  split at h <;> simp_all

theorem runCommand_step_keeps {fuel : Nat} {p : Program} {s t : State} (hs : P s) (hl : P (cmdLoad p s))
    (h : runCommand fuel (.step p) s = some t) : P t := by
  have hstart : P (if s.lp = some p then s else cmdLoad p s) := by split_ifs <;> assumption
  cases hu : cmdStep p s with
  | fault f => simp [runCommand, hu] at h
  | refused r => simp [runCommand, hu] at h
  | next u =>
    obtain rfl : u = t := by simpa [runCommand, hu] using h
    exact hstep _ _ hstart hu

end

/-- Settles O14: a step keeps the parameters, so RUN and STEP do; the other commands do not write them. -/
theorem configurationNeverChanges : Obligations.ConfigurationNeverChanges := by
  have hkeep (q : Params) (s t : State) (hs : s.params = q) (h : step s = .next t) : t.params = q :=
    (step_keeps_lp_params h).2.trans hs
  refine ⟨fun p s h => ?_, fun fuel c s t h => ?_, fun s t h => (step_keeps_lp_params h).2⟩
  · obtain ⟨-, rfl⟩ := cmdCreate_eq_some_iff.mp h
    exact initial_params p
  · cases c with
    | reset => cases h; rfl
    | load p => cases h; rfl
    | snapshot => cases h; rfl
    | run p => exact runCommand_run_keeps (hkeep s.params) rfl h
    | step p => exact runCommand_step_keeps (hkeep s.params) rfl rfl h

/-! ### STEP -/

theorem cmdStep_of_loaded {p : Program} {s : State} (h : s.lp = some p) : cmdStep p s = step s := by
  rw [cmdStep, if_pos h]

theorem cmdStep_of_not_loaded {p : Program} {s : State} (h : s.lp ≠ some p) : cmdStep p s = step (load p s) := by
  rw [cmdStep, if_neg h, cmdLoad]

theorem cmdStep_loads {p : Program} {s t : State} (h : cmdStep p s = .next t) : t.lp = some p := by
  by_cases hp : s.lp = some p
  · rw [cmdStep_of_loaded hp] at h
    exact (step_keeps_lp_params h).1.trans hp
  · rw [cmdStep_of_not_loaded hp] at h
    exact (step_keeps_lp_params h).1.trans (load_lp p s)

/-- Settles O16: the program is compared once, and a step keeps the loaded one. -/
theorem stepCommandKeepsTheCursor : Obligations.StepCommandKeepsTheCursor := fun _ _ =>
  ⟨cmdStep_of_loaded, cmdStep_of_not_loaded, fun _ h => ⟨cmdStep_loads h, cmdStep_of_loaded (cmdStep_loads h)⟩⟩

/-! ### RUN -/

theorem runLoop_succ_of_continued {n : Nat} {s t : State} (h : step s = .next t) (hr : stepResult t = .continued) :
    runLoop (n + 1) s = runLoop n t := by
  simp only [runLoop, h, hr]

theorem continueFor_succ_of_continued {n : Nat} {s t : State} (h : step s = .next t)
    (hr : stepResult t = .continued) : continueFor (n + 1) s = continueFor n t := by
  simp only [continueFor, h, hr, if_true]

theorem exists_of_continueFor_succ {n : Nat} {s u : State} (h : continueFor (n + 1) s = some u) :
    ∃ t, step s = .next t ∧ stepResult t = .continued ∧ continueFor n t = some u := by
  unfold continueFor at h
  split at h
  · next t ht =>
    split at h
    · next hr => exact ⟨t, ht, hr, h⟩
    · cases h
  · cases h
  · cases h

/-- The loop ends Done exactly when Continued steps within the budget are followed by a Halted one (R284). -/
theorem runLoop_eq_done_iff {fuel : Nat} {s t : State} :
    runLoop fuel s = .done t ↔
      ∃ n u, n < fuel ∧ continueFor n s = some u ∧ step u = .next t ∧ stepResult t = .halted := by
  induction fuel generalizing s with
  | zero => simp [runLoop]
  | succ fuel ih =>
    constructor
    · intro h
      cases hs : step s with
      | fault f => simp [runLoop, hs] at h
      | refused r => simp [runLoop, hs] at h
      | next v =>
        cases hr : stepResult v with
        | continued =>
          rw [runLoop_succ_of_continued hs hr, ih] at h
          obtain ⟨n, u, hn, hu, hend⟩ := h
          exact ⟨n + 1, u, by omega, (continueFor_succ_of_continued hs hr).trans hu, hend⟩
        | halted =>
          obtain rfl : v = t := by simpa [runLoop, hs, hr] using h
          exact ⟨0, s, by omega, rfl, hs, hr⟩
        | error e => simp [runLoop, hs, hr] at h
    · rintro ⟨n, u, hn, hu, hend⟩
      cases n with
      | zero =>
        cases hu
        simp only [runLoop, hend.1, hend.2]
      | succ n =>
        obtain ⟨v, hv, hr, hu⟩ := exists_of_continueFor_succ hu
        rw [runLoop_succ_of_continued hv hr, ih]
        exact ⟨n, u, by omega, hu, hend⟩

theorem stepResult_eq_halted_iff {s : State} : stepResult s = .halted ↔ s.st = .halted := by
  unfold stepResult
  split <;> simp_all

theorem progLength_of_lp {s : State} {p : Program} (h : s.lp = some p) : progLength s = p.operations.length := by
  simp [progLength, h]

/-- An executed instruction that ends halted has moved the cursor to the program's end (R130). -/
theorem progLength_le_of_exec_halted {i : Instr} {s t : State} (h : exec i s = .next t) (hst : t.st = .halted) :
    progLength t ≤ t.pc := by
  have hcomplete (u : State) (hu : (complete u).st = .halted) : progLength (complete u) ≤ (complete u).pc := by
    by_contra hlt
    rw [complete_st, if_neg (by simpa using hlt)] at hu
    cases hu
  rw [exec_eq_runOperation] at h
  rcases runOperation_cases h with ⟨-, rfl⟩ | ⟨-, e, -, rfl⟩ | ⟨-, u, -, rfl⟩
  · exact hcomplete _ hst
  · cases hst
  · exact hcomplete _ hst

theorem progLength_le_of_step_halted {s t : State} (hlp : s.lp ≠ none) (h : step s = .next t) (hst : t.st = .halted) :
    progLength t ≤ t.pc := by
  rcases step_cases h with ⟨hnone, -⟩ | ⟨p, hp, hpc, rfl⟩ | ⟨p, -, -, ⟨hd, -, rfl⟩ | ⟨i, -, he⟩⟩
  · exact absurd hnone hlp
  · exact (progLength_of_lp (s := haltStep s) hp).trans_le hpc
  · cases hst
  · exact progLength_le_of_exec_halted he hst

theorem continueFor_keeps_lp {n : Nat} {s u : State} (h : continueFor n s = some u) : u.lp = s.lp := by
  induction n generalizing s with
  | zero =>
    cases h
    rfl
  | succ n ih =>
    obtain ⟨t, ht, -, hu⟩ := exists_of_continueFor_succ h
    exact (ih hu).trans (step_keeps_lp_params ht).1

/-- Settles O17: the loop from the loaded state, and the cursor after its last step. -/
theorem runDoneIsContinuedStepsThenHalted : Obligations.RunDoneIsContinuedStepsThenHalted := by
  refine fun fuel p s t => ⟨runLoop_eq_done_iff, fun h => ?_⟩
  obtain ⟨n, u, -, hu, ht, hr⟩ := runLoop_eq_done_iff.mp h
  have hlp : u.lp = some p := continueFor_keeps_lp hu
  have htp : t.lp = some p := (step_keeps_lp_params ht).1.trans hlp
  have hpc := progLength_le_of_step_halted (by simp [hlp]) ht (stepResult_eq_halted_iff.mp hr)
  exact ⟨(progLength_of_lp htp).symm.trans_le hpc, htp⟩

end Sys2Proof.Machine
end

section
/-!
PROOFS. The machine invariant: it holds after reset and every step and command keeps it (spec/10_state.md sections 2, 3 and 6,
spec/20_memory.md section 4); and where a taken branch goes in a well-formed program (spec/46_branch.md).
-/
namespace Sys2Proof.Machine

/-! ### Branch targets -/

theorem progLabels_of_lp {s : State} {p : Program} (h : s.lp = some p) : progLabels s = p.labels := by
  simp [progLabels, h]

/-- The label table of a well-formed program holds numbers of its operations only (R89). -/
theorem lt_of_mem_labelIndices {p : Program} (hwf : Program.wf p = true) {l : Text} {k : Nat}
    (h : k ∈ labelIndices p.labels l) : k < p.operations.length := by
  have hlabels : p.labels = labelTable p.operations := of_decide_eq_true (Bool.and_eq_true_iff.mp hwf).2
  rw [hlabels, labelIndices_labelTable, labelPositions, List.mem_filter, List.mem_range] at h
  exact h.1

theorem exec_b_of_one_index {f : Suffix} {l : Text} {s : State} {k : Nat} (hc : suffixHolds f s.cpsr = true)
    (h : labelIndices (progLabels s) l = [k]) : exec (.b f l) s = .next (complete (jumpTo s k)) :=
  runOperation_ok hc (branchBody_ok.mpr ⟨k, h, rfl⟩)

theorem b_traps_of_indices {f : Suffix} {l : Text} {s : State} {k k' : Nat} {ks : List Nat}
    (hc : suffixHolds f s.cpsr = true) (h : labelIndices (progLabels s) l = k :: k' :: ks) :
    Traps (.b f l) s (.ambiguousLabel l (k :: k' :: ks)) :=
  runOperation_error hc (by simp only [branchBody, lookupLabel, h])

/-- Settles O55: the lookup's two answers, and the range of the table's numbers. -/
theorem branchGoesToItsOnlyLabel : Obligations.BranchGoesToItsOnlyLabel := by
  refine fun f l s hc => ⟨fun k h => exec_b_of_one_index hc h, fun k k' ks h => b_traps_of_indices hc h,
    fun p k hp hwf h => ?_⟩
  have hk : k < p.operations.length := lt_of_mem_labelIndices hwf (by rw [← progLabels_of_lp hp, h]; simp)
  refine ⟨hk, _, exec_b_of_one_index hc h, rfl, ?_⟩
  simp [stepResult, progLength_of_lp hp, Nat.not_le.mpr hk]

/-! ### The invariant of an initial and of a loaded state -/

theorem inv_initial {p : Params} (h : p.valid = true) : (State.initial p).Inv where
  params := h
  memWf := wf_nil
  window := rfl
  cpsr := by simp [cpsrClean]
  program := fun _ hp => nomatch hp
  cursor := Nat.zero_le _
  status := rfl

/-- Settles O18: the default parameters are valid, and CREATE checks those it is given. -/
theorem resetStateHasTheInvariant : Obligations.ResetStateHasTheInvariant := by
  refine ⟨inv_initial (by decide), fun p s h => ?_⟩
  obtain ⟨hv, rfl⟩ := cmdCreate_eq_some_iff.mp h
  exact inv_initial hv

theorem inv_load {s : State} {p : Program} (hs : s.Inv) (hp : Program.wf p = true) : (load p s).Inv where
  params := hs.params
  memWf := hs.memWf
  window := hs.window
  cpsr := hs.cpsr
  program := fun q hq => by
    obtain rfl : p = q := Option.some.inj hq
    exact hp
  cursor := Nat.zero_le _
  status := rfl

/-! ### The invariant after a step -/

section
variable {s : State}

theorem inv_haltStep (hs : s.Inv) (hpc : progLength s ≤ s.pc) : (haltStep s).Inv where
  params := hs.params
  memWf := hs.memWf
  window := hs.window
  cpsr := hs.cpsr
  program := hs.program
  cursor := hs.cursor
  status := decide_eq_true hpc

theorem inv_takeError (hs : s.Inv) (hpc : s.pc < progLength s) (e : RunError) : (takeError s e).Inv where
  params := hs.params
  memWf := hs.memWf
  window := hs.window
  cpsr := hs.cpsr
  program := hs.program
  cursor := hs.cursor
  status := by simp [statusOk, hpc]

/-- What an operation writes before it completes keeps the invariant, whatever the status was. -/
structure Writes (s u : State) : Prop where
  params : u.params = s.params
  lp     : u.lp = s.lp
  memWf  : u.mem.wf = true
  window : memInWindow u = true
  cpsr   : cpsrClean u = true
  cursor : u.pc ≤ progLength s

theorem inv_complete {u : State} (hs : s.Inv) (hu : Writes s u) : (complete u).Inv where
  params := (congrArg Params.valid hu.params).trans hs.params
  memWf := hu.memWf
  window := hu.window
  cpsr := hu.cpsr
  program := fun p hp => hs.program p (hu.lp.symm.trans hp)
  cursor := hu.cursor.trans_eq (progLength_congr hu.lp).symm
  status := by
    by_cases h : progLength u ≤ u.pc <;> simp [statusOk, h]

theorem memInWindow_iff : memInWindow s = true ↔
    ∀ c ∈ s.mem, s.params.physMemBase ≤ c.1 ∧ c.1 < s.params.physMemBase + 4 * s.params.memWords := by
  simp [memInWindow]

theorem cpsrClean_iff : cpsrClean s = true ↔ s.cpsr.extractLsb' 0 28 = 0 := by simp [cpsrClean]

/-- A word of the window is written inside it: its address and the base are multiples of 4. -/
theorem memInWindow_writeWord (hs : s.Inv) {a : Nat} (v : Word) (ha : a % 4 = 0) (hlo : s.params.physMemBase ≤ a)
    (hhi : a < s.params.physMemBase + 4 * s.params.memWords) : memInWindow (setMem s (writeWord s.mem a v)) = true := by
  obtain ⟨-, hbase, -⟩ := params_valid_iff.mp hs.params
  refine memInWindow_iff.mpr fun c hc => ?_
  rcases mem_writeWord hc with hc | ⟨h₁, h₂⟩
  · exact memInWindow_iff.mp hs.window c hc
  · simp only [setMem_params]
    omega

theorem inv_exec {p : Program} {i : Instr} {t : State} (hs : s.Inv) (hp : s.lp = some p)
    (hpc : s.pc < progLength s) (h : exec i s = .next t) : t.Inv := by
  have hclean := cpsrClean_iff.mp hs.cpsr
  rcases exec_cases h with ⟨-, rfl⟩ | ⟨-, ⟨e, rfl⟩ | ⟨-, d, r, -, rfl⟩ | ⟨-, r, rfl⟩ |
    ⟨f, x, y, v, a, -, -, -, ha, hlo, hhi, rfl⟩ | ⟨f, l, k, -, hk, rfl⟩⟩
  · exact inv_complete hs ⟨rfl, rfl, hs.memWf, hs.window, hs.cpsr, hpc⟩
  · exact inv_takeError hs hpc e
  · refine inv_complete hs
      { params := by simp, lp := by simp, memWf := by simpa using hs.memWf, window := ?_, cpsr := ?_,
        cursor := by simpa using hpc }
    · simpa [memInWindow] using hs.window
    · rw [cpsrClean_iff, regUpdated_cpsr]
      split_ifs <;> simp [hclean]
  · exact inv_complete hs ⟨rfl, rfl, hs.memWf, hs.window, by simp [cpsrClean_iff, hclean], hpc⟩
  · exact inv_complete hs ⟨rfl, rfl, wf_writeWord _ _ hs.memWf, memInWindow_writeWord hs v ha hlo hhi, hs.cpsr, hpc⟩
  · rw [progLabels_of_lp hp] at hk
    have hlt := lt_of_mem_labelIndices (hs.program p hp) (hk ▸ List.mem_singleton_self k)
    exact inv_complete hs ⟨rfl, rfl, hs.memWf, hs.window, hs.cpsr, (hlt.trans_eq (progLength_of_lp hp).symm).le⟩

end

theorem inv_step {s t : State} (hs : s.Inv) (h : step s = .next t) : t.Inv := by
  rcases step_cases h with ⟨-, rfl⟩ | ⟨p, hp, hpc, rfl⟩ | ⟨p, hp, hpc, hcase⟩
  · exact hs
  · exact inv_haltStep hs ((progLength_of_lp hp).trans_le hpc)
  · have hlt : s.pc < progLength s := hpc.trans_eq (progLength_of_lp hp).symm
    rcases hcase with ⟨hd, -, rfl⟩ | ⟨i, -, he⟩
    · exact inv_takeError hs hlt _
    · exact inv_exec hs hp hlt he

/-- Settles O19: a step halts, takes an error or completes an operation, and each keeps the invariant. -/
theorem everyStepKeepsTheInvariant : Obligations.EveryStepKeepsTheInvariant := fun _ _ => inv_step

/-- Settles O20: programs of the builder are well-formed, so loading them keeps the invariant, and steps do. -/
theorem everyCommandKeepsTheInvariant : Obligations.EveryCommandKeepsTheInvariant := by
  intro fuel s t hs
  refine ⟨fun h => ?_, fun h => ?_, fun ex text p hp => ?_⟩
  · cases h
    exact inv_initial hs.params
  · cases h
    exact hs
  · have hload := inv_load hs (program_wf_of_parseProgram hp)
    refine ⟨fun h => ?_, runCommand_run_keeps (fun _ _ => inv_step) hload,
      runCommand_step_keeps (fun _ _ => inv_step) hs hload⟩
    cases h
    exact hload

end Sys2Proof.Machine
end

section
/-!
PROOFS. The shifter: its bits, its arithmetic, and the amount rules (spec/40_engine_and_operands.md section 3).
-/
namespace Sys2Proof.Machine

/-- Settles O30: the first Bad token decides. -/
theorem resolutionFailsExactlyOnBadTokens : Obligations.ResolutionFailsExactlyOnBadTokens := fun s _ =>
  ⟨fun _ h => resolve_of_firstBad s h, exists_resolve_eq_ok s⟩

/-! ### The shifts of bit vectors

An amount of 32 or more, which the shift functions treat apart, leaves what the shift of a bit vector by it leaves. -/

theorem lslFn_eq_shiftLeft (v : Word) (n : Nat) : lslFn v n = v <<< n := by
  unfold lslFn
  split_ifs with hn
  · rfl
  · exact (BitVec.shiftLeft_eq_zero (Nat.le_of_not_lt hn)).symm

theorem lsrFn_eq_ushiftRight (v : Word) (n : Nat) : lsrFn v n = v >>> n := by
  unfold lsrFn
  split_ifs with hn
  · rfl
  · exact (BitVec.ushiftRight_eq_zero (Nat.le_of_not_lt hn)).symm

theorem msb_eq_getLsbD_31 (v : Word) : v.msb = v.getLsbD 31 := BitVec.msb_eq_getLsbD_last v

theorem asrFn_eq_sshiftRight (v : Word) (n : Nat) : asrFn v n = v.sshiftRight n := by
  have hsign {n : Nat} (hn : ¬n < 32) : v.sshiftRight n = if v.getLsbD 31 then BitVec.allOnes 32 else 0 := by
    refine BitVec.eq_of_getLsbD_eq fun i hi => ?_
    rw [BitVec.getLsbD_sshiftRight, if_neg (by omega), msb_eq_getLsbD_31]
    cases v.getLsbD 31
    · simp [hi]
    · simp only [if_true, BitVec.getLsbD_allOnes, hi, Nat.not_le.mpr hi, decide_true, decide_false, Bool.not_false,
        Bool.and_self]
  unfold asrFn
  split_ifs with hn hv
  · rfl
  · rw [hsign hn, if_pos hv]
    rfl
  · rw [hsign hn, if_neg hv]

theorem rorFn_eq_rotateRight (v : Word) (n : Nat) : rorFn v n = v.rotateRight (n % 32) := by
  unfold rorFn
  split_ifs with hn
  · simp [hn, BitVec.rotateRight_def]
  · simp [BitVec.rotateRight_def]

/-! ### Bits -/

theorem getLsbD_lsrFn (v : Word) (n i : Nat) :
    (lsrFn v n).getLsbD i = (decide (i + n < 32) && v.getLsbD (i + n)) := by
  rw [lsrFn_eq_ushiftRight, BitVec.getLsbD_ushiftRight, Nat.add_comm n i]
  by_cases h : i + n < 32
  · simp [h]
  · simp [h, BitVec.getLsbD_of_ge v (i + n) (by omega)]

section
variable (v : Word) (n : Nat) {i : Nat} (hi : i < 32)
include hi

theorem getLsbD_lslFn : (lslFn v n).getLsbD i = (decide (n ≤ i) && v.getLsbD (i - n)) := by
  rw [lslFn_eq_shiftLeft, BitVec.getLsbD_shiftLeft]
  by_cases h : n ≤ i
  · simp [hi, h, Nat.not_lt.mpr h]
  · simp [h, Nat.lt_of_not_le h]

theorem getLsbD_asrFn : (asrFn v n).getLsbD i = v.getLsbD (min (i + n) 31) := by
  rw [asrFn_eq_sshiftRight, BitVec.getLsbD_sshiftRight, msb_eq_getLsbD_31, Nat.add_comm n i]
  by_cases h : i + n < 32
  · simp [hi, h, Nat.min_eq_left (Nat.le_of_lt_succ h)]
  · simp [hi, h, Nat.min_eq_right (by omega : 31 ≤ i + n)]

theorem getLsbD_rorFn : (rorFn v n).getLsbD i = v.getLsbD ((i + n) % 32) := by
  unfold rorFn
  split_ifs with hn
  · rw [show (i + n) % 32 = i by omega]
  · rw [BitVec.getLsbD_or, BitVec.getLsbD_ushiftRight, BitVec.getLsbD_shiftLeft]
    by_cases h : i + n % 32 < 32
    · have hlow : i < 32 - n % 32 := by omega
      simp [hi, hlow, show (i + n) % 32 = n % 32 + i by omega]
    · have hhigh : ¬i < 32 - n % 32 := by omega
      simp [hi, hhigh, show (i + n) % 32 = i - (32 - n % 32) by omega,
        BitVec.getLsbD_of_ge v (n % 32 + i) (by omega)]

theorem getLsbD_rrxFn (c : Bool) : (rrxFn v c).getLsbD i = if i = 31 then c else v.getLsbD (i + 1) := by
  rw [rrxFn, BitVec.getLsbD_append]
  by_cases h : i = 31
  · simp [h]
  · have hlow : i < 31 := by omega
    simp [h, hlow, Nat.add_comm]

end

/-- Settles O31: one lemma per shift function. -/
theorem shifterBits : Obligations.ShifterBits := fun v n i hi =>
  ⟨getLsbD_lslFn v n hi, getLsbD_lsrFn v n i, getLsbD_asrFn v n hi, getLsbD_rorFn v n hi, getLsbD_rrxFn v hi⟩

/-! ### Amounts -/

/-- Rotation looks at the amount modulo 32 only. -/
theorem rorFn_mod (v : Word) {n m : Nat} (h : n % 32 = m % 32) : rorFn v n = rorFn v m := by
  simp only [rorFn, h]

theorem shiftAmount_mod (rule : ShiftAmountRule) (amt : Word) : shiftAmount rule amt % 32 = amt.toNat % 32 := by
  cases rule <;> simp only [shiftAmount] <;> omega

theorem shiftAmount_of_lt (rule : ShiftAmountRule) {amt : Word} (h : amt.toNat < 32) :
    shiftAmount rule amt = amt.toNat := by
  cases rule <;> simp only [shiftAmount] <;> omega

/-- Settles O32: below 32 both rules give the amount itself, rotation is periodic, and RRX has no amount. -/
theorem amountRulesAgree : Obligations.AmountRulesAgree := by
  rintro k v amt c (h | rfl | rfl)
  · cases k <;> simp only [shiftFn, shiftAmount_of_lt _ h]
  · exact rorFn_mod v ((shiftAmount_mod .armReg amt).trans (shiftAmount_mod .mask5 amt).symm)
  · rfl

/-! ### Arithmetic of the shifts -/

theorem lslFn_eq_ofNat_mul (v : Word) (n : Nat) : lslFn v n = BitVec.ofNat 32 (v.toNat * 2 ^ n) := by
  refine BitVec.eq_of_toNat_eq ?_
  rw [lslFn_eq_shiftLeft, BitVec.toNat_shiftLeft, Nat.shiftLeft_eq, BitVec.toNat_ofNat]

theorem lsrFn_eq_ofNat_div (v : Word) (n : Nat) : lsrFn v n = BitVec.ofNat 32 (v.toNat / 2 ^ n) := by
  refine BitVec.eq_of_toNat_eq ?_
  rw [lsrFn_eq_ushiftRight, BitVec.toNat_ushiftRight, Nat.shiftRight_eq_div_pow, BitVec.toNat_ofNat,
    Nat.mod_eq_of_lt ((Nat.div_le_self ..).trans_lt v.isLt)]

theorem asrFn_eq_ofInt_div (v : Word) (n : Nat) : asrFn v n = BitVec.ofInt 32 (v.toInt / 2 ^ n) := by
  rw [asrFn_eq_sshiftRight, ← BitVec.ofInt_toInt (x := v.sshiftRight n), BitVec.toInt_sshiftRight,
    Int.shiftRight_eq_div_pow, Nat.cast_pow, Nat.cast_two]

theorem rrxFn_eq_ofNat_add (v : Word) (c : Bool) : rrxFn v c = BitVec.ofNat 32 (v.toNat / 2 + 2 ^ 31 * c.toNat) := by
  have hv := v.isLt
  have hlow : (v.extractLsb' 1 31).toNat = v.toNat / 2 := by
    rw [BitVec.extractLsb'_toNat, Nat.shiftRight_one]
    omega
  refine BitVec.eq_of_toNat_eq ?_
  rw [rrxFn, BitVec.toNat_append, ← Nat.shiftLeft_add_eq_or_of_lt (BitVec.isLt _), hlow, BitVec.toNat_ofNat]
  cases c <;> simp <;> omega

end Sys2Proof.Machine
end

section
/-!
PROOFS. The results and flags of the arithmetic, the moves, the shift mnemonics and the compares (spec/42_arithmetic_move.md,
spec/43_shifts.md, spec/44_compare.md), and the conditions on those flags (spec/41_conditions_and_flags.md section 1).
-/
namespace Sys2Proof.Machine

/-! ### Arithmetic with carry and borrow -/

theorem newV_addRaw (x y : Word) (c : Bool) :
    newV .add (addRaw x y c).s = overflows (x.toInt + y.toInt + (c.toNat : Int)) := newV_add_eq_overflows _

theorem newV_subRaw (x y : Word) (b : Bool) :
    newV .sub (subRaw x y b).s = overflows (x.toInt - y.toInt - (b.toNat : Int)) := newV_sub_eq_overflows _

section
variable {f : Suffix} {s : State}

/-- A Register-update operation of mode ADD whose computation is a raw sum. -/
theorem addRaw_completes {compute : State → Except RunError Raw} {p q : Word} {c : Bool}
    (hc : suffixHolds f s.cpsr = true) (h : compute s = .ok (addRaw p q c)) (d : RegNum) :
    ∃ t, runOperation f (regUpdateBody .add f.s (.reg d) compute) s = .next t ∧
      WroteReg s t d (p + q + BitVec.ofNat 32 c.toNat) ∧
      FlagsIf f.s s.cpsr t.cpsr ((p + q + BitVec.ofNat 32 c.toNat).getLsbD 31)
        (decide (p + q + BitVec.ofNat 32 c.toNat = 0)) (decide (2 ^ 32 ≤ p.toNat + q.toNat + c.toNat))
        (overflows (p.toInt + q.toInt + (c.toNat : Int))) := by
  have h := regUpdate_completes (mode := .add) hc h f.s d
  rwa [addRaw_res, newC_addRaw, newV_addRaw] at h

/-- A Register-update operation of mode SUB whose computation is a raw difference. -/
theorem subRaw_completes {compute : State → Except RunError Raw} {p q : Word} {c : Bool}
    (hc : suffixHolds f s.cpsr = true) (h : compute s = .ok (subRaw p q c)) (d : RegNum) :
    ∃ t, runOperation f (regUpdateBody .sub f.s (.reg d) compute) s = .next t ∧
      WroteReg s t d (p - q - BitVec.ofNat 32 c.toNat) ∧
      FlagsIf f.s s.cpsr t.cpsr ((p - q - BitVec.ofNat 32 c.toNat).getLsbD 31)
        (decide (p - q - BitVec.ofNat 32 c.toNat = 0)) (decide (q.toNat + c.toNat ≤ p.toNat))
        (overflows (p.toInt - q.toInt - (c.toNat : Int))) := by
  have h := regUpdate_completes (mode := .sub) hc h f.s d
  rwa [subRaw_res, newC_subRaw, newV_subRaw] at h

end

/-- Settles O35: ADC's computation is the raw sum with the C flag. -/
theorem adcCompletes : Obligations.AdcCompletes := fun _ d _ _ _ _ _ hc hx hy =>
  addRaw_completes hc (computeTwo_of_ok hx hy adcFn) d

/-- Settles O37: SBC's computation is the raw difference with the complement of the C flag as borrow. -/
theorem sbcCompletes : Obligations.SbcCompletes := fun _ d _ _ _ _ _ hc hx hy =>
  subRaw_completes hc (computeTwo_of_ok hx hy sbcFn) d

theorem rsbFn_eq_subFn (a b : Word) (c : Bool) : rsbFn a b c = subFn b a c := rfl

/-- Settles O38: the raw differences with the sources exchanged, RSB's without borrow. -/
theorem rsbAndRscComplete : Obligations.RsbAndRscComplete := by
  refine fun f d x y s a b hc hx hy => ⟨?_, subRaw_completes hc (computeTwo_of_ok hx hy rscFn) d⟩
  have h := regUpdate_completes (mode := .sub) hc (computeTwo_of_ok hx hy rsbFn) f.s d
  have hz : decide (b - a = 0) = decide (a = b) := decide_eq_decide.mpr (sub_eq_zero.trans eq_comm)
  rwa [rsbFn_eq_subFn, subFn_res, newC_subFn, newV_subFn, hz] at h

/-! ### Moves and shift mnemonics: mode SHIFT -/

/-- A Register-update operation of mode SHIFT: C and V are 0 with S (R155, R156). -/
theorem shift_completes {f : Suffix} {s : State} {compute : State → Except RunError Raw} {v : Word}
    (hc : suffixHolds f s.cpsr = true) (h : compute s = .ok (Raw.ofRes v)) (d : RegNum) :
    ∃ t, runOperation f (regUpdateBody .shift f.s (.reg d) compute) s = .next t ∧ WroteReg s t d v ∧
      FlagsIf f.s s.cpsr t.cpsr (v.getLsbD 31) (decide (v = 0)) false false :=
  regUpdate_completes (mode := .shift) hc h f.s d

theorem not_eq_ofInt (a : Word) : ~~~a = BitVec.ofInt 32 (-1 - a.toInt) := by
  rw [sub_eq_add_neg, BitVec.ofInt_add, BitVec.ofInt_neg (n := a.toInt), BitVec.ofInt_toInt, ← sub_eq_add_neg]
  exact (BitVec.allOnes_sub_eq_not a).symm

/-- Settles O40: the complement is -1 less the value, and is 0 for the word of ones. -/
theorem mvnCompletes : Obligations.MvnCompletes := by
  intro f d x s a hc hx
  have h := shift_completes hc (computeOne_of_ok hx fun a _ => ~~~a) d
  have hn : (~~~a).getLsbD 31 = !a.getLsbD 31 := by simp
  have hz : decide (~~~a = 0) = decide (a = 0xFFFFFFFF) := decide_eq_decide.mpr BitVec.not_eq_comm
  rw [hn, hz, not_eq_ofInt] at h
  exact h

theorem computeShift_of_ok {x y : Operand} {s : State} {a b : Word} (k : ShiftKind) (hx : resolve s x = .ok a)
    (hy : resolve s y = .ok b) :
    computeShift k x y s = .ok (Raw.ofRes (shiftFn s.params.shiftAmountRule k a b (flagC s.cpsr))) :=
  computeTwo_of_ok hx hy _

theorem shiftAmount_eq (rule : ShiftAmountRule) (b : Word) :
    shiftAmount rule b = if rule = .armReg then b.toNat % 256 else b.toNat % 32 := by
  cases rule <;> rfl

/-- Settles O42: the shift functions as product and quotient. -/
theorem lslAndLsrComplete : Obligations.LslAndLsrComplete := by
  intro f d x y s a b n hc hx hy hn
  rw [← shiftAmount_eq] at hn
  obtain ⟨t, ht, hw, hf⟩ := shift_completes hc (computeShift_of_ok .lsl hx hy) d
  obtain ⟨t', ht', hw', hf'⟩ := shift_completes hc (computeShift_of_ok .lsr hx hy) d
  exact ⟨⟨t, _, ht, by rw [shiftFn, hn, lslFn_eq_ofNat_mul], hw, hf⟩,
    ⟨t', _, ht', by rw [shiftFn, hn, lsrFn_eq_ofNat_div], hw', hf'⟩⟩

/-- Settles O43: the shift functions as floored quotient and as rotation, which looks at the amount modulo 32 only. -/
theorem asrAndRorComplete : Obligations.AsrAndRorComplete := by
  intro f d x y s a b n hc hx hy hn
  rw [← shiftAmount_eq] at hn
  obtain ⟨t, ht, hw, hf⟩ := shift_completes hc (computeShift_of_ok .asr hx hy) d
  obtain ⟨t', ht', hw', hf'⟩ := shift_completes hc (computeShift_of_ok .ror hx hy) d
  exact ⟨⟨t, _, ht, by rw [shiftFn, hn, asrFn_eq_ofInt_div], hw, hf⟩,
    ⟨t', _, ht', by rw [shiftFn, rorFn_eq_rotateRight, shiftAmount_mod], hw', hf'⟩⟩

/-- Settles O44: the shifted-in C flag is bit 31 of the result. -/
theorem rrxCompletes : Obligations.RrxCompletes := by
  intro f d x s a hc hx
  obtain ⟨t, ht, hw, hf⟩ := shift_completes hc
    (computeOne_of_ok hx fun a c => shiftFn s.params.shiftAmountRule .rrx a 0 c) d
  refine ⟨t, _, ht, rrxFn_eq_ofNat_add a (flagC s.cpsr), hw, ?_⟩
  rwa [shiftFn, getLsbD_rrxFn a (by decide) (flagC s.cpsr)] at hf

/-- The operation looks at its computation on the start-of-step state only. -/
theorem regUpdate_congr {c₁ c₂ : State → Except RunError Raw} {s : State} (h : c₁ s = c₂ s) (f : Suffix)
    (mode : FlagMode) (setS : Bool) (rd : Target) :
    runOperation f (regUpdateBody mode setS rd c₁) s = runOperation f (regUpdateBody mode setS rd c₂) s := by
  simp only [runOperation, regUpdateBody, h]

theorem computeShift_eq_computeOne_shift (k : ShiftKind) (x y : Simple) (s : State) :
    computeShift k (.simple x) (.simple y) s = computeOne (.shift k x (some y)) (fun a _ => a) s := by
  simp only [computeShift, computeTwo, computeOne, resolveTwo, resolve, resolveAmount_some]
  cases resolveSimple s x with
  | error e => rfl
  | ok a => cases resolveSimple s y <;> rfl

theorem computeRrx_eq_computeOne_shift (x : Simple) (s : State) :
    computeOne (.simple x) (fun a c => shiftFn s.params.shiftAmountRule .rrx a 0 c) s =
      computeOne (.shift .rrx x none) (fun a _ => a) s := by
  simp only [computeOne, resolve, resolveAmount_none]
  cases resolveSimple s x <;> rfl

/-- Settles O33: both computations resolve the value, then the amount, and apply the shift function. -/
theorem shiftMnemonicEqualsMovOfShiftOperand : Obligations.ShiftMnemonicEqualsMovOfShiftOperand := fun f rd x y s =>
  have two (k : ShiftKind) := regUpdate_congr (computeShift_eq_computeOne_shift k x y s) f .shift f.s rd
  ⟨two .lsl, two .lsr, two .asr, two .ror, regUpdate_congr (computeRrx_eq_computeOne_shift x s) f .shift f.s rd⟩

/-! ### 64-bit addition -/

/-- The sum of two-word numbers is the sum of the high words with the carry of the low ones, over the sum of those. -/
theorem append_add_append (a₁ a₀ b₁ b₀ : Word) :
    ((a₁ + b₁ + BitVec.ofNat 32 (decide (2 ^ 32 ≤ a₀.toNat + b₀.toNat)).toNat) ++ (a₀ + b₀) : BitVec 64) =
      (a₁ ++ a₀ : BitVec 64) + (b₁ ++ b₀ : BitVec 64) := by
  have hcat (p q : Word) : (p ++ q : BitVec 64).toNat = p.toNat * 2 ^ 32 + q.toNat := by
    rw [BitVec.toNat_append, ← Nat.shiftLeft_add_eq_or_of_lt q.isLt, Nat.shiftLeft_eq]
  have ha₀ := a₀.isLt
  have hb₀ := b₀.isLt
  refine BitVec.eq_of_toNat_eq ?_
  rw [hcat, BitVec.toNat_add (a₁ ++ a₀ : BitVec 64), hcat, hcat, BitVec.toNat_add, BitVec.toNat_add, BitVec.toNat_add]
  generalize hcarry : decide (2 ^ 32 ≤ a₀.toNat + b₀.toNat) = carry
  cases carry <;> simp at hcarry ⊢ <;> omega

theorem resolve_reg (s : State) (r : RegNum) : resolve s (.simple (.reg r)) = .ok (readReg s r) := rfl

/-- Settles O41: the first operation's carry is the second one's, and it leaves the high words as they were. -/
theorem addsThenAdcAddsSixtyFourBits : Obligations.AddsThenAdcAddsSixtyFourBits := by
  intro s r0 r1 r2 r3 d0 d1 h1 h3 hd
  obtain ⟨u, hu, hwu, hfu⟩ := exec_add_completes (f := ⟨none, true⟩) rfl (resolve_reg s r0) (resolve_reg s r2) d0
  obtain ⟨t, ht, hwt, -⟩ := adcCompletes ⟨none, false⟩ d1 _ _ u _ _ rfl (resolve_reg u r1) (resolve_reg u r3)
  refine ⟨u, t, hu, ht, ?_⟩
  rw [hwt.value, hwt.others d0 hd, hwu.value, hwu.others r1 h1.symm, hwu.others r3 h3.symm, (hfu.2 rfl).c]
  exact append_add_append ..

/-! ### Compares -/

theorem and_eq_zero_iff (a b : Word) : a &&& b = 0 ↔ ∀ i : Fin 32, ¬(a.getLsbD i = true ∧ b.getLsbD i = true) := by
  constructor
  · intro h i
    have hi := congrArg (fun w => w.getLsbD i) h
    simpa using hi
  · refine fun h => BitVec.eq_of_getLsbD_eq fun i hi => ?_
    simpa using h ⟨i, hi⟩

/-- Settles O46: the flags of the sum, and of mode SHIFT for the AND and for the exclusive OR. -/
theorem cmnTstAndTeqComplete : Obligations.CmnTstAndTeqComplete := by
  intro f x y s a b hc hx hy
  have hcmn := compare_completes (mode := .add) hc (computeTwo_of_ok hx hy addFn)
  have htst := compare_completes (mode := .shift) hc (computeTwo_of_ok hx hy tstFn)
  have hteq := compare_completes (mode := .shift) hc (computeTwo_of_ok hx hy teqFn)
  rw [addFn_res, newC_addFn, newV_addFn] at hcmn
  have hand : decide (a &&& b = 0) = decide (∀ i : Fin 32, ¬(a.getLsbD i = true ∧ b.getLsbD i = true)) :=
    decide_eq_decide.mpr (and_eq_zero_iff a b)
  have hxor : decide (a ^^^ b = 0) = decide (a = b) := decide_eq_decide.mpr BitVec.xor_eq_zero_iff
  rw [tstFn, Raw.ofRes, BitVec.getLsbD_and, hand] at htst
  rw [teqFn, Raw.ofRes, BitVec.getLsbD_xor, hxor] at hteq
  exact ⟨hcmn, htst, hteq⟩

/-! ### Conditions -/

/-- N against V after a subtraction is the signed order: V says that the sign of the 32-bit difference is the wrong one. -/
theorem msb_sub_eq_overflows_iff (a b : Word) :
    (a - b).getLsbD 31 = overflows (a.toInt - b.toInt) ↔ b.toInt ≤ a.toInt := by
  have ha := a.toInt_lt
  have ha' := a.le_toInt
  have hb := b.toInt_lt
  have hb' := b.le_toInt
  rw [← msb_eq_getLsbD_31, BitVec.msb_eq_toInt, BitVec.toInt_sub, overflows, ← Bool.decide_or, decide_eq_decide,
    Int.bmod_def]
  omega

/-- Each condition by the four flags of a word (R150). -/
theorem condHolds_of_flags {w w' : Word} {n z c v : Bool} (h : FlagsSet w w' n z c v) :
    condHolds .eq w' = z ∧ condHolds .ne w' = !z ∧ condHolds .cs w' = c ∧ condHolds .cc w' = !c ∧
      condHolds .hi w' = (c && !z) ∧ condHolds .ls w' = (!c || z) ∧ condHolds .ge w' = (n == v) ∧
      condHolds .lt w' = (n != v) ∧ condHolds .gt w' = (!z && (n == v)) ∧ condHolds .le w' = (z || (n != v)) := by
  simp only [condHolds, h.n, h.z, h.c, h.v, and_self]

/-- Settles O47: the flags of CMP as propositions about its operands, under the conditions' definitions. -/
theorem conditionsAfterCompare : Obligations.ConditionsAfterCompare := by
  refine ⟨fun _ _ => rfl, fun _ _ _ => rfl, fun w => ?_, fun f x y s a b hc hx hy => ?_⟩
  · simp [condHolds, flagN, flagZ, flagC, flagV]
  · obtain ⟨t, ht, -, hflags⟩ := exec_cmp_completes hc hx hy
    obtain ⟨heq, hne, hcs, hcc, hhi, hls, hge, hlt, hgt, hle⟩ := condHolds_of_flags hflags
    have hnat : a = b ↔ a.toNat = b.toNat := BitVec.toNat_inj.symm
    have hint : a = b ↔ a.toInt = b.toInt := BitVec.toInt_inj.symm
    have hsigned : ((a - b).getLsbD 31 == overflows (a.toInt - b.toInt)) = decide (b.toInt ≤ a.toInt) :=
      (beq_eq_decide ..).trans (decide_eq_decide.mpr (msb_sub_eq_overflows_iff a b))
    rw [hsigned] at hge hgt
    rw [bne, hsigned] at hlt hle
    refine ⟨t, ht, heq, hne.trans decide_not.symm, hcs, ?_, ?_, ?_, hge, ?_, ?_, ?_⟩
    · rw [hcc, ← decide_not, decide_eq_decide, Nat.not_le]
    · rw [hhi, ← decide_not, ← Bool.decide_and, decide_eq_decide, hnat]
      omega
    · rw [hls, ← decide_not, ← Bool.decide_or, decide_eq_decide, hnat]
      omega
    · rw [hlt, ← decide_not, decide_eq_decide, Int.not_le]
    · rw [hgt, ← decide_not, ← Bool.decide_and, decide_eq_decide, hint]
      omega
    · rw [hle, ← decide_not, ← Bool.decide_or, decide_eq_decide, hint]
      omega

end Sys2Proof.Machine
end

section
/-!
PROOFS. LDR and STR (spec/45_load_store.md), the memory primitives (spec/20_memory.md), and the frames and the order of error
checks of every instruction (spec/40_engine_and_operands.md section 1, spec/60_exceptions.md section 2).
-/
namespace Sys2Proof.Machine

/-! ### The memory primitives -/

/-- A byte of another aligned word: the primitives' addresses are multiples of 4, so two words are one or share no byte. -/
theorem memRead_of_memWrite_other {s t : State} {a b : Nat} {v : Word} (h : memWrite s a v = .ok t) (hne : b ≠ a)
    (hb : b % 4 = 0) : memRead t b = memRead s b := by
  obtain ⟨rfl, ha, -, -⟩ := memWrite_ok h
  simp only [memRead, setMem_params, setMem_mem,
    readWord_writeWord_other s.mem v (by omega : b + 4 ≤ a ∨ a + 4 ≤ b)]

theorem memRead_of_memWrite_same {s t : State} {a : Nat} {v : Word} (h : memWrite s a v = .ok t) :
    memRead t a = .ok v := by
  obtain ⟨rfl, ha, hlo, hhi⟩ := memWrite_ok h
  rw [memRead_window (setMem s (writeWord s.mem a v)) ha hlo hhi, setMem_mem, readWord_writeWord_self]

/-- Settles O49: the word written, the others, and the canonical form. -/
theorem memReadAfterMemWrite : Obligations.MemReadAfterMemWrite := by
  refine fun s t a v h => ⟨memRead_of_memWrite_same h, fun b => memRead_of_memWrite_other h, fun hwf => ?_⟩
  obtain ⟨rfl, -⟩ := memWrite_ok h
  exact wf_writeWord a v hwf

/-! ### LDR -/

/-- A Register-update operation of mode OTHER: C and V are 0 with S (R155, R156). -/
theorem load_completes {f : Suffix} {s : State} {compute : State → Except RunError Raw} {v : Word}
    (hc : suffixHolds f s.cpsr = true) (h : compute s = .ok (Raw.ofRes v)) (d : RegNum) :
    ∃ t, runOperation f (regUpdateBody .other f.s (.reg d) compute) s = .next t ∧ WroteReg s t d v ∧
      FlagsIf f.s s.cpsr t.cpsr (v.getLsbD 31) (decide (v = 0)) false false :=
  regUpdate_completes (mode := .other) hc h f.s d

section
variable {s : State}

/-- LDR loads nothing where loads are disabled or its source is not exactly `[Rn]` (R230). -/
theorem computeLoad_eq_computeOne {x : Operand}
    (h : s.params.memIndirectLoads = false ∨ ∀ n, x ≠ .simple (.memInd n)) :
    computeLoad x s = computeOne x (fun a _ => a) s := by
  unfold computeLoad
  split
  · next n hm =>
    rcases h with h | h
    · exact absurd (hm.symm.trans h) (by decide)
    · exact absurd rfl (h n)
  · rfl

theorem computeLoad_window {n : RegNum} {k : Nat} (hm : s.params.memIndirectLoads = true)
    (hbase : s.params.physMemBase % 4 = 0) (hk : k < s.params.memWords)
    (ha : (readReg s n).toNat = s.params.physMemBase + 4 * k) :
    computeLoad (.simple (.memInd n)) s = .ok (Raw.ofRes (readWord s.mem (s.params.physMemBase + 4 * k))) := by
  have hread := memRead_window s (a := (readReg s n).toNat) (by omega) (by omega) (by omega)
  simp only [computeLoad, hm, hread]
  rw [ha]

end

/-- Settles O50: the two computations of LDR. -/
theorem ldrCompletes : Obligations.LdrCompletes := fun _ d _ hc =>
  ⟨fun _ _ h hx => load_completes hc ((computeLoad_eq_computeOne h).trans (computeOne_of_ok hx fun a _ => a)) d,
    fun _ _ hm hk hbase ha => load_completes hc (computeLoad_window hm hbase hk ha) d⟩

/-! ### STR -/

theorem exec_str_of_window {f : Suffix} {x y : Operand} {s : State} {v a : Word} {k : Nat}
    (hc : suffixHolds f s.cpsr = true) (hx : resolve s x = .ok v) (hy : resolve s y = .ok a)
    (hbase : s.params.physMemBase % 4 = 0) (hk : k < s.params.memWords)
    (ha : a.toNat = s.params.physMemBase + 4 * k) :
    exec (.str f x y) s = .next (complete (advance (setMem s (writeWord s.mem a.toNat v)))) :=
  runOperation_ok hc (storeBody_ok.mpr
    ⟨v, a, _, hx, hy, memWrite_window s v (by omega) (by omega) (by omega), rfl⟩)

theorem nextOp_complete_advance_setMem (s : State) (m : Memory) : NextOp s (complete (advance (setMem s m))) :=
  ⟨rfl, rfl, rfl, rfl⟩

/-- Settles O51: the write of one word, and its frame. -/
theorem strCompletes : Obligations.StrCompletes := by
  refine fun f x y s v a k hc hx hy hbase hk ha =>
    ⟨_, exec_str_of_window hc hx hy hbase hk ha, nextOp_complete_advance_setMem .., rfl, rfl, ?_, fun b hb => ?_⟩
  · rw [← ha]
    exact readWord_writeWord_self ..
  · exact readByte_writeWord_outside _ v hb

theorem resolve_memInd (s : State) (r : RegNum) : resolve s (.simple (.memInd r)) = .ok (readReg s r) := rfl

/-- Settles O52: the store leaves the address register as it was, and the load reads the word stored. -/
theorem storeThenLoadRoundTrips : Obligations.StoreThenLoadRoundTrips := by
  intro s rv rn d k hm hbase hk ha
  obtain ⟨u, hu, hnext, hregs, -, hword, -⟩ := strCompletes ⟨none, false⟩ _ _ s _ _ k rfl (resolve_reg s rv)
    (resolve_memInd s rn) hbase hk ha
  have hp : u.params = s.params := hnext.params
  obtain ⟨t, ht, hw, -⟩ := (ldrCompletes ⟨none, false⟩ d u rfl).2 rn k (by rwa [hp]) (by rwa [hp]) (by rwa [hp])
    (by rwa [readReg_congr hregs, hp])
  refine ⟨u, t, hu, ht, ?_⟩
  rw [hw.value, hp, hword]

/-! ### Frames -/

theorem readReg_regUpdated_of_ne {mode : FlagMode} {setS : Bool} {s : State} {d q : RegNum} {r : Raw} (h : q ≠ d) :
    readReg (complete (regUpdated mode setS s d r)) q = readReg s q :=
  (wroteReg_complete_regUpdated mode setS s d r).others q h

/-- Settles O57: of what an instruction can do, this shape leaves skipping, an error and the write of its target. -/
theorem registerUpdateFrame : Obligations.RegisterUpdateFrame := by
  intro i s t hshape h
  rcases exec_cases h with ⟨-, rfl⟩ | ⟨-, ⟨e, rfl⟩ | ⟨-, d, r, htarget, rfl⟩ | ⟨hcmp, -⟩ |
    ⟨f, x, y, v, a, rfl, -⟩ | ⟨f, l, k, rfl, -⟩⟩
  · exact ⟨fun r _ => rfl, fun a => rfl, rfl, fun _ => rfl, rfl, rfl, rfl⟩
  · exact ⟨fun r _ => rfl, fun a => rfl, rfl, fun _ => rfl, rfl, rfl, rfl⟩
  · refine ⟨fun q hq => readReg_regUpdated_of_ne fun hqd => hq (hqd ▸ htarget), by simp, by simp, fun hs => by simp [hs],
      ?_, by simp, by simp⟩
    rw [complete_cpsr, regUpdated_cpsr]
    split_ifs <;> simp
  · rw [hshape] at hcmp
    cases hcmp
  · cases hshape
  · cases hshape

/-- Settles O58: as O57, with the flags in place of the target. -/
theorem compareFrame : Obligations.CompareFrame := by
  intro i s t hshape h
  rcases exec_cases h with ⟨-, rfl⟩ | ⟨-, ⟨e, rfl⟩ | ⟨hreg, -⟩ | ⟨-, r, rfl⟩ |
    ⟨f, x, y, v, a, rfl, -⟩ | ⟨f, l, k, rfl, -⟩⟩
  · exact ⟨rfl, fun a => rfl, rfl, rfl, rfl, rfl⟩
  · exact ⟨rfl, fun a => rfl, rfl, rfl, rfl, rfl⟩
  · rw [hshape] at hreg
    cases hreg
  · exact ⟨rfl, fun a => rfl, rfl, by simp, rfl, rfl⟩
  · cases hshape
  · cases hshape

theorem str_frame {f : Suffix} {x y : Operand} {s t : State} (h : exec (.str f x y) s = .next t) :
    t.regs = s.regs ∧ t.cpsr = s.cpsr ∧ t.lp = s.lp ∧ t.params = s.params ∧
      (t.mem = s.mem ∨ ∃ v a, resolve s y = .ok a ∧ t.mem = writeWord s.mem a.toNat v) := by
  rcases exec_cases h with ⟨-, rfl⟩ | ⟨-, ⟨e, rfl⟩ | ⟨hreg, -⟩ | ⟨hcmp, -⟩ |
    ⟨f', x', y', v, a, heq, -, hy, -, -, -, rfl⟩ | ⟨f, l, k, heq, -⟩⟩
  · exact ⟨rfl, rfl, rfl, rfl, .inl rfl⟩
  · exact ⟨rfl, rfl, rfl, rfl, .inl rfl⟩
  · cases hreg
  · cases hcmp
  · cases heq
    exact ⟨rfl, rfl, rfl, rfl, .inr ⟨v, a, hy, rfl⟩⟩
  · cases heq

theorem b_frame {f : Suffix} {l : Text} {s t : State} (h : exec (.b f l) s = .next t) :
    t = { s with pc := t.pc, st := t.st } := by
  rcases runOperation_cases h with ⟨-, rfl⟩ | ⟨-, e, -, rfl⟩ | ⟨-, u, hu, rfl⟩
  · rfl
  · rfl
  · obtain ⟨k, -, rfl⟩ := branchBody_ok.mp hu
    rfl

/-- Settles O59: a STR that writes memory has resolved its address, and writes the word there alone. -/
theorem storeAndBranchFrames : Obligations.StoreAndBranchFrames := by
  refine ⟨fun f x y s t h => ?_, fun f l s t h => ⟨b_frame h, fun a => by rw [b_frame h]⟩⟩
  obtain ⟨hregs, hcpsr, hlp, hparams, hmem⟩ := str_frame h
  refine ⟨hregs, hcpsr, hlp, hparams, fun a ha b hb => ?_, fun e he b => ?_⟩
  · rcases hmem with hmem | ⟨v, a', ha', hmem⟩
    · rw [hmem]
    · obtain rfl : a = a' := Except.ok.inj (ha.symm.trans ha')
      rw [hmem, readByte_writeWord_outside _ v hb]
  · rcases hmem with hmem | ⟨v, a', ha', -⟩
    · rw [hmem]
    · cases he.symm.trans ha'

/-! ### The order of error checks -/

/-- The first Bad token of two sources in list order is the one they fail with (R137). -/
theorem resolveTwo_of_firstBad (s : State) {x y : Operand} {tok : Text}
    (h : [x, y].findSome? Operand.firstBad = some tok) : resolveTwo s x y = .error (.decodeError tok) := by
  cases hx : Operand.firstBad x with
  | some t =>
    obtain rfl : t = tok := by simpa [hx] using h
    simp only [resolveTwo, resolve_of_firstBad s hx]
  | none =>
    obtain ⟨a, ha⟩ := exists_resolve_eq_ok s hx
    have hy : Operand.firstBad y = some tok := by simpa [hx] using h
    simp only [resolveTwo, ha, resolve_of_firstBad s hy]

theorem computeTwo_of_firstBad (s : State) {x y : Operand} {tok : Text}
    (h : [x, y].findSome? Operand.firstBad = some tok) (g : Word → Word → Bool → Raw) :
    computeTwo x y g s = .error (.decodeError tok) := by
  simp only [computeTwo, resolveTwo_of_firstBad s h]

/-- A source with a Bad token is not exactly `[Rn]`. -/
theorem computeLoad_of_firstBad (s : State) {x : Operand} {tok : Text} (h : Operand.firstBad x = some tok) :
    computeLoad x s = .error (.decodeError tok) := by
  rw [computeLoad_eq_computeOne (.inr fun n hn => ?_), computeOne_of_firstBad s h]
  rw [hn] at h
  cases h

/-- The first Bad token among an instruction's sources decides, whatever its target or address (R260). -/
theorem traps_of_firstBad {i : Instr} {s : State} {tok : Text} (hc : suffixHolds i.suffix s.cpsr = true)
    (h : i.sources.findSome? Operand.firstBad = some tok) : Traps i s (.decodeError tok) := by
  cases i
  case b f l => cases h
  case str f x y => exact runOperation_error hc (by simp only [storeBody, resolveTwo_of_firstBad s h])
  case tst f x y | teq f x y | cmp f x y | cmn f x y =>
    exact compare_of_compute_error hc (computeTwo_of_firstBad s h _)
  case ldr f rd x =>
    exact regUpdate_of_compute_error hc (computeLoad_of_firstBad s (by simpa [Instr.sources] using h)) _ rd
  case mov f rd x | mvn f rd x | rrx f rd x =>
    exact regUpdate_of_compute_error hc (computeOne_of_firstBad s (by simpa [Instr.sources] using h) _) _ rd
  all_goals exact regUpdate_of_compute_error hc (computeTwo_of_firstBad s h _) _ _

theorem exists_computeOne_eq_ok (s : State) {x : Operand} (hx : Operand.firstBad x = none)
    (g : Word → Bool → Word) : ∃ r, computeOne x g s = .ok r :=
  have ⟨_, ha⟩ := exists_resolve_eq_ok s hx
  ⟨_, computeOne_of_ok ha g⟩

theorem exists_computeTwo_eq_ok (s : State) {x y : Operand} (hx : Operand.firstBad x = none)
    (hy : Operand.firstBad y = none) (g : Word → Word → Bool → Raw) : ∃ r, computeTwo x y g s = .ok r :=
  have ⟨_, ha⟩ := exists_resolve_eq_ok s hx
  have ⟨_, hb⟩ := exists_resolve_eq_ok s hy
  ⟨_, computeTwo_of_ok ha hb g⟩

/-- Where every source resolves, and the address of a load is one of the window, the computation succeeds. -/
theorem exists_instrComputation_eq_ok {i : Instr} {s : State} (hs : ∀ x ∈ i.sources, Operand.firstBad x = none)
    (hload : ∀ f rd n, s.params.memIndirectLoads = true → i = .ldr f rd (.simple (.memInd n)) →
      (readReg s n).toNat % 4 = 0 ∧ s.params.physMemBase ≤ (readReg s n).toNat ∧
        (readReg s n).toNat < s.params.physMemBase + 4 * s.params.memWords) :
    ∃ r, instrComputation i s = .ok r := by
  cases i
  case str f x y => exact ⟨_, rfl⟩
  case b f l => exact ⟨_, rfl⟩
  case mov f rd x | mvn f rd x | rrx f rd x =>
    simp only [instrComputation]
    exact exists_computeOne_eq_ok s (hs x (by simp [Instr.sources])) _
  case ldr f rd x =>
    by_cases hx : s.params.memIndirectLoads = true ∧ ∃ n, x = .simple (.memInd n)
    · obtain ⟨hm, n, rfl⟩ := hx
      obtain ⟨ha, hlo, hhi⟩ := hload f rd n hm rfl
      simp [instrComputation, computeLoad, hm, memRead_window s ha hlo hhi]
    · rw [instrComputation, computeLoad_eq_computeOne (by simpa [or_iff_not_imp_left] using hx)]
      exact exists_computeOne_eq_ok s (hs x (by simp [Instr.sources])) _
  all_goals
    rename_i x y
    simp only [instrComputation, computeShift]
    exact exists_computeTwo_eq_ok s (hs x (by simp [Instr.sources])) (hs y (by simp [Instr.sources])) _

/-- A Bad target raises its error once the computation has succeeded. -/
theorem traps_of_bad_target {i : Instr} {s : State} {tok : Text} {r : Raw} (hc : suffixHolds i.suffix s.cpsr = true)
    (ht : i.target = some (.bad tok)) (hr : instrComputation i s = .ok r) : Traps i s (.stateModification tok) := by
  cases i
  case tst | teq | cmp | cmn | str | b => cases ht
  all_goals
    obtain rfl := Option.some.inj ht
    exact regUpdate_of_bad_target hc hr _ tok

/-- Settles O60: the sources in order, then the target. -/
theorem operandErrorsComeFirst : Obligations.OperandErrorsComeFirst := by
  refine fun i s hc => ⟨fun x rest tok hs hx => traps_of_firstBad hc ?_,
    fun x y tok hs hx hy => traps_of_firstBad hc ?_, fun tok ht hs hload => ?_⟩
  · rw [hs, List.findSome?_cons, hx]
  · rw [hs, List.findSome?_cons, hx, List.findSome?_cons, hy]
  · obtain ⟨r, hr⟩ := exists_instrComputation_eq_ok hs hload
    exact traps_of_bad_target hc ht hr

end Sys2Proof.Machine
end
